-- ==== Sys2Proof/Word.lean ====
section
/-! DEFINITION. Sys2Proof/Word.lean: the block's word and byte types (R9, R11). -/

namespace Sys2Proof

/-- A 32-bit register word (R19, D3). -/
abbrev Word := BitVec 32

/-- A capture byte: an unsigned 8-bit value (R11). -/
abbrev Byte := BitVec 8

end Sys2Proof
end

