-- ==== Sys2Proof/Config.lean ====
section
/-! DEFINITION. Sys2Proof/Config.lean: the format constants (R6), the implementation parameters (R7) and the free
values: constants without a body, of which nothing can be proved beyond their type. -/

namespace Sys2Proof

/-- `PILOT_LEN` (R6): zero bytes in a pilot run. -/
def pilotLen : Nat := 256

/-- `MAGIC` (R6): the five bytes that open every block, in address order. -/
def magic : List Byte := [0x00#8, 0xFF#8, 0xFF#8, 0xFF#8, 0xFF#8]

/-- `MAGIC_LEN` (R6). -/
def magicLen : Nat := 5

/-- `HDR_LEN` (R6). -/
def hdrLen : Nat := 10

/-- `TRAILER_LEN` (R6): trailer bytes, never validated. -/
def trailerLen : Nat := 10

/-- `MAX_DATA` (R6): the data size a size byte of 0 stands for. -/
def maxData : Nat := 256

/-- The implementation parameters of R7, fixed for one instance. -/
structure Params where
  /-- `CAP_SIZE`: bytes in the capture memory. -/
  capSize : Word
  /-- `MAX_BLOCKS`: entries in the block table. -/
  maxBlocks : Word
  /-- `REG_BASE`: host address of register offset 0 (R45). -/
  regBase : Nat
  /-- `CAP_BASE`: host address of capture index 0 (R45). -/
  capBase : Nat
  deriving DecidableEq, Repr

/-- R7's constraint: both sizes are at least 1 (the 32-bit width gives the upper bound 2^32 − 1). -/
abbrev Params.wf (p : Params) : Prop := 1 ≤ p.capSize.toNat ∧ 1 ≤ p.maxBlocks.toNat

/-- What the platform picks for `CAP_SIZE` (R7 `OPEN`, log 1). -/
opaque Config.capSizePick : Nat

/-- What the platform picks for `MAX_BLOCKS` (R7 `OPEN`, log 1). -/
opaque Config.maxBlocksPick : Nat

/-- `REG_BASE` (R7 `OPEN`, D28). -/
opaque Config.regBase : Nat

/-- `CAP_BASE` (R7 `OPEN`, D28). -/
opaque Config.capBase : Nat

/-- A size parameter within R7's bounds: every value from 1 to 2^32 − 1 is one of these. -/
def Config.sizeOfPick (pick : Nat) : Word := BitVec.ofNat 32 (1 + pick % (2 ^ 32 - 1))

/-- The parameters of the instance State.reset is about: any that meet R7. -/
def Config.params : Params where
  capSize := Config.sizeOfPick Config.capSizePick
  maxBlocks := Config.sizeOfPick Config.maxBlocksPick
  regBase := Config.regBase
  capBase := Config.capBase

/-- The unspecified 32-bit value a busy read returns (R106, I3), applied to `State.draws` (log 8). -/
opaque Config.busyRead : Nat → Word

/-- The value of a capture byte never written since power-on, as a host read shows it (R126, I2, log 6); by its index,
since R44 gives repeated reads one value. -/
opaque Config.powerOnByte : Nat → Byte

/-- How many host accesses come before a command's completion (R113, R117), applied to `State.draws` at its acceptance
(log 4). -/
opaque Config.completionDelay : Nat → Nat

/-- Whether the host prints "missing pilot tone" (R15, I15: the condition is not in the source, log 20), applied to what
the host can read of a pass: the words of `STATUS` and of the retained entries, and the bytes of the capture. -/
opaque Config.missingPilotTone : List Word → List Byte → Bool

end Sys2Proof
end

