-- ==== Sys2Proof/Syntax.lean ====
section
/-! DEFINITION. Sys2Proof/Syntax.lean: the commands (R3: the block's "instructions"), one constructor for each row of
spec/opcode_table.json (R63). Operands are implicit registers, so no constructor carries one. -/

namespace Sys2Proof

/-- A command of the opcode map (R63). -/
inductive Instr where
  /-- OPC 0x0 (R102). -/
  | nop
  /-- OPC 0x1 (R78). -/
  | csum
  /-- OPC 0x2 (R74). -/
  | findPilot
  /-- OPC 0x3 (R75). -/
  | seekHeader
  /-- OPC 0x4 (R90). -/
  | decode
  /-- OPC 0x5 (R91). -/
  | readBlocks
  /-- OPC 0x6 (R98). -/
  | checkComplete
  /-- OPC 0x7 (R97). -/
  | clearTable
  /-- OPC 0x8 to 0xF (R64, R103): `opc` is the reserved opcode itself. -/
  | reserved (opc : BitVec 4)
  deriving DecidableEq, Repr

end Sys2Proof
end

