-- ==== Sys2Proof/WellFormed.lean ====
section
/-! DEFINITION. Sys2Proof/WellFormed.lean: which terms of Instr stand for a command. -/

namespace Sys2Proof

/-- A reserved command carries one of the reserved opcodes 0x8 to 0xF (R64); every other constructor is a command as it
stands. -/
def Instr.wf : Instr → Bool
  | .nop => true
  | .csum => true
  | .findPilot => true
  | .seekHeader => true
  | .decode => true
  | .readBlocks => true
  | .checkComplete => true
  | .clearTable => true
  | .reserved opc => decide (8 ≤ opc.toNat)

end Sys2Proof
end

