-- ==== Sys2Proof/Decode.lean ====
section
/-! DEFINITION. Sys2Proof/Decode.lean: the host's bus transactions (R67), the decoder from a transaction to a command
(R62, R63), and the encoder. -/

namespace Sys2Proof

/-- One bus transaction, the triple `(kind, address, data)` of R67. A register access carries its width in bits, since
R42 says what an access of another width does; its offset lies in the 4096-byte register space (R19). -/
inductive HostOp where
  /-- `W` (`WR`): a register write. -/
  | regWrite (bits : Nat) (offset : BitVec 12) (data : Word)
  /-- `R` (`RD`): a register read. -/
  | regRead (bits : Nat) (offset : BitVec 12)
  /-- `CW` (`WRB`): a capture byte write. -/
  | capWrite (index : Nat) (value : Byte)
  /-- `CR` (`RDB`): a capture byte read. -/
  | capRead (index : Nat)
  deriving DecidableEq, Repr

/-- Why a transaction carries no command. -/
inductive DecodeReject where
  /-- It is not a register write. -/
  | notARegisterWrite
  /-- Its width is not 32 bits (R42, R62). -/
  | notAWord
  /-- Its offset is not a multiple of 4 (R42). -/
  | misaligned
  /-- It writes another register than `CMD` (R62). -/
  | notCmd
  deriving DecidableEq, Repr

/-- Byte offset of `CMD` (R19, R62). -/
def cmdOffset : BitVec 12 := 0x008#12

/-- A register access must be a 32-bit access at an offset that is a multiple of 4 (R42). -/
def wordAligned (bits : Nat) (offset : BitVec 12) : Bool :=
  decide (bits = 32) && decide (offset.toNat % 4 = 0)

/-- The opcode field `OPC = w[3:0]` of a command word (R62); bits 31:4 are ignored. -/
def opcOfWord (w : Word) : BitVec 4 := w.extractLsb' 0 4

/-- The opcode map of R63. -/
def decodeOpc (opc : BitVec 4) : Instr :=
  match opc.toNat with
  | 0x0 => .nop
  | 0x1 => .csum
  | 0x2 => .findPilot
  | 0x3 => .seekHeader
  | 0x4 => .decode
  | 0x5 => .readBlocks
  | 0x6 => .checkComplete
  | 0x7 => .clearTable
  | _ => .reserved opc

/-- Decoding of a `CMD` word: total over every 32-bit word (R62, D30). -/
def decodeWord (w : Word) : Instr := decodeOpc (opcOfWord w)

/-- The decoder: total on every bus transaction, a command or a rejection by name (R62, R42). -/
def decodeOp : HostOp → Except DecodeReject Instr
  | .regWrite bits offset data =>
    if bits ≠ 32 then .error .notAWord
    else if offset.toNat % 4 ≠ 0 then .error .misaligned
    else if offset ≠ cmdOffset then .error .notCmd
    else .ok (decodeWord data)
  | .regRead _ _ => .error .notARegisterWrite
  | .capWrite _ _ => .error .notARegisterWrite
  | .capRead _ => .error .notARegisterWrite

/-- The opcode of a command (R63). -/
def Instr.opc : Instr → BitVec 4
  | .nop => 0x0#4
  | .csum => 0x1#4
  | .findPilot => 0x2#4
  | .seekHeader => 0x3#4
  | .decode => 0x4#4
  | .readBlocks => 0x5#4
  | .checkComplete => 0x6#4
  | .clearTable => 0x7#4
  | .reserved opc => opc

/-- The encoder: a command's word, the opcode in bits 3:0 and zeros in the ignored bits (R62, R68 `CMD`). -/
def encode (i : Instr) : Word := i.opc.setWidth 32

/-- The bus transaction that issues a command (R62, R68 `CMD <mnemonic>`). -/
def encodeOp (i : Instr) : HostOp := .regWrite 32 cmdOffset (encode i)

/-- A row of the opcode table (R63): a word belongs to it when `w &&& mask = pattern`. -/
def opcodeRow : Instr → Word × Word
  | .nop => (0x0000000F#32, 0x00000000#32)
  | .csum => (0x0000000F#32, 0x00000001#32)
  | .findPilot => (0x0000000F#32, 0x00000002#32)
  | .seekHeader => (0x0000000F#32, 0x00000003#32)
  | .decode => (0x0000000F#32, 0x00000004#32)
  | .readBlocks => (0x0000000F#32, 0x00000005#32)
  | .checkComplete => (0x0000000F#32, 0x00000006#32)
  | .clearTable => (0x0000000F#32, 0x00000007#32)
  | .reserved _ => (0x00000008#32, 0x00000008#32)

/-- The word an instruction's table bits stand for: the low `nbits` bits of `w`, every bit above them 0 (a command is
one 32-bit word, so nothing above bit 31 exists). -/
def tableWord (nbits w : Nat) : Word := BitVec.ofNat 32 (w % 2 ^ nbits)

/-- The command the decoder reads from a `CMD` write of the table's bits; none where the bits do not fit the one
32-bit word a command has. -/
def decodeTableWord (nbits w : Nat) : Option Instr :=
  if w % 2 ^ nbits < 2 ^ 32 then
    match decodeOp (.regWrite 32 cmdOffset (tableWord nbits w)) with
    | .ok i => some i
    | .error _ => none
  else none

end Sys2Proof
end

