-- ==== Sys2Proof/Machine/State.lean ====
section
/-! DEFINITION. Sys2Proof/Machine/State.lean: the state the spec gives the machine (10_state.md, 20_memory.md), as plain
data, the reasons a step can stop, and the state after power-on reset (R124). -/

namespace Sys2Proof.Machine

open Sys2Proof

/-- Why a run stops as erroneous. -/
inductive Fault where
  /-- A command read capture byte `index`, which the host has not written since power-on (R126, I2: "a fault of the
  run"). Raised by CSUM, FIND_PILOT, SEEK_HEADER, DECODE and READ_BLOCKS. Safe: nothing can be proved of such a run. -/
  | unwrittenCaptureByte (index : Nat)
  deriving DecidableEq, Repr

/-- Why the model gives a step no meaning. -/
inductive Refusal where
  /-- A command that exec rejects by its mnemonic. Raised by exec's refused arms only (there is none now). Safe: nothing
  can be proved of such a run. -/
  | notModelled (mnemonic : String)
  deriving DecidableEq, Repr

/-- The result codes of R65; no other value is ever written to `STATUS.RESULT`. -/
inductive ResultCode where
  | ok
  | noMoreBlocks
  | incompleteHeader
  | invalidHeader
  | headerCsumMismatch
  | blockIncomplete
  | dataCsumMismatch
  | rangeError
  | tableFull
  | illegalCmd
  deriving DecidableEq, Repr

/-- `STATUS[19:16]` (R23), the completeness flags of R98. -/
structure CompFlags where
  /-- Bit 16, `COMPLETE`. -/
  complete : Bool
  /-- Bit 17, `MISSING_BEGIN`. -/
  missingBegin : Bool
  /-- Bit 18, `MISSING_END`. -/
  missingEnd : Bool
  /-- Bit 19, `NO_DATA`. -/
  noData : Bool
  deriving DecidableEq, Repr

/-- The flags of a command that computes none (R35, R112). -/
def CompFlags.none : CompFlags := ⟨false, false, false, false⟩

/-- The fields of `STATUS` (R23); its reserved bits read 0 and are not stored. -/
structure Status where
  /-- Bit 0. -/
  busy : Bool
  /-- Bit 1. -/
  done : Bool
  /-- Bit 2. -/
  found : Bool
  /-- Bit 3. -/
  ovr : Bool
  /-- Bits 15:8. -/
  result : ResultCode
  /-- Bits 19:16. -/
  flags : CompFlags
  deriving DecidableEq, Repr

/-- `STATUS` after reset (R124). -/
def Status.reset : Status := ⟨false, false, false, false, .ok, CompFlags.none⟩

/-- A block-table entry, with the widths of R32. -/
structure Entry where
  /-- Capture index of the block's first magic byte. -/
  start : Word
  /-- Number of `rawData` bytes, 12 to 277. -/
  rawLen : BitVec 9
  /-- Load address. -/
  load : BitVec 16
  /-- The raw size byte. -/
  sizeByte : Byte
  /-- 256 if the size byte is 0, else the size byte. -/
  dataSize : BitVec 9
  /-- Block number; 0 means last block. -/
  blkNum : Byte
  /-- Header checksum byte. -/
  hcsum : Byte
  /-- Data checksum byte. -/
  dcsum : Byte
  /-- `isFirstBlock`: the block was reached through pilot detection. -/
  first : Bool
  deriving DecidableEq, Repr

/-- The header bytes after the magic, at frame offsets 5 to 9 (R53). -/
structure Header where
  /-- Offset 5. -/
  loadLo : Byte
  /-- Offset 6. -/
  loadHi : Byte
  /-- Offset 7. -/
  sizeByte : Byte
  /-- Offset 8. -/
  blkNum : Byte
  /-- Offset 9. -/
  hcsum : Byte
  deriving DecidableEq, Repr

/-- What a decode answers (R79). -/
inductive DecodeResult where
  /-- `Ok(e, next)`: the entry and the index where the remainder starts. -/
  | block (e : Entry) (next : Nat)
  /-- `Fail(code)`. -/
  | fail (code : ResultCode)
  deriving DecidableEq, Repr

/-- The capture memory's written bytes, as (index, byte) pairs with strictly rising indices. An index that is not listed
holds no value: the host has not written it since power-on (R37, R126). -/
abbrev Memory := List Host.Cell

/-- The canonical form: strictly rising indices. (An unlisted index reads as no value, so no entry can equal what an
unlisted index reads as.) -/
abbrev Memory.wf (m : Memory) : Prop := m.Pairwise (fun x y => x.1 < y.1)

/-- The registers of the map of R19, apart from the reserved offsets. -/
inductive RegName where
  | id | ctrl | cmd | status | bufLen | cursor | argAddr | argLen | resultIndex | csum | blockCount | tblIndex
  | tblW0 | tblW1 | tblW2 | tblW3 | cfgCapSize | cfgMaxBlocks
  deriving DecidableEq, Repr

/-- A line of a host program (R67, R68). The pseudo-operations that only expand are functions on these lines. -/
inductive HostLine where
  /-- One bus transaction. -/
  | op (a : HostOp)
  /-- `WAIT`: read `STATUS` again and again until `DONE` reads 1. -/
  | wait
  /-- `BROK <label>`: read `STATUS`, continue at line `target` if `RESULT` reads 0x00, else at the next line. -/
  | brok (target : Nat)
  deriving DecidableEq, Repr

/-- The host agent (R16): its program, the line it makes next, and what its reads returned, newest first (log 3). -/
structure HostAgent where
  script : List HostLine
  pos : Nat
  reads : List Word
  deriving DecidableEq, Repr

/-- The state of one instance of the block and of the host that drives it. -/
structure State where
  /-- The implementation parameters (R7), read through `CFG_CAP_SIZE` and `CFG_MAX_BLOCKS` (R30, log 1). -/
  params : Params
  /-- `CTRL.IE` (R21). -/
  ie : Bool
  /-- `CMD.OPC`, the last accepted opcode (R22). -/
  cmd : BitVec 4
  /-- `STATUS` (R23). -/
  status : Status
  /-- `BUF_LEN` (R24). -/
  bufLen : Word
  /-- `CURSOR` (R18). -/
  cursor : Word
  /-- `ARG_ADDR` (R25). -/
  argAddr : Word
  /-- `ARG_LEN` (R25). -/
  argLen : Word
  /-- `RESULT_INDEX` (R26). -/
  resultIndex : Word
  /-- `CSUM[7:0]` (R27). -/
  csum : Byte
  /-- `TBL_INDEX` (R29). -/
  tblIndex : Word
  /-- The valid entries `TBL[0 … BLOCK_COUNT−1]` (R28, R32); its length is `BLOCK_COUNT` (log 10). -/
  table : List Entry
  /-- `PEND` (R33). -/
  pend : Option (BitVec 4)
  /-- `CAP` (R36, R37). -/
  cap : Memory
  /-- The host agent (R16, R67). -/
  host : HostAgent
  /-- The model's own: host accesses still to come before the pending command completes (log 4). -/
  delay : Nat
  /-- The model's own: the counter free values are applied to (log 8). -/
  draws : Nat
  deriving DecidableEq, Repr

/-- The state after power-on reset (R124) of the instance with parameters `p`: every register at R19's reset value, no
valid table entry, `PEND` empty, no capture byte written. -/
def State.resetWith (p : Params) : State where
  params := p
  ie := false
  cmd := 0#4
  status := Status.reset
  bufLen := 0#32
  cursor := 0#32
  argAddr := 0#32
  argLen := 0#32
  resultIndex := 0#32
  csum := 0#8
  tblIndex := 0#32
  table := []
  pend := none
  cap := []
  host := ⟨[], 0, []⟩
  delay := 0
  draws := 0

/-- The state after power-on reset (R124, R125). -/
def State.reset : State := State.resetWith Config.params

end Sys2Proof.Machine
end

