-- ==== Sys2Proof/Machine/Flags.lean ====
section
/-! DEFINITION. Sys2Proof/Machine/Flags.lean: the result codes' values (R65), `STATUS` as a word (R23), the completeness
flags (R98) and the rollover checksum (R76, R77). -/

namespace Sys2Proof.Machine

open Sys2Proof

/-- The 8-bit code of R65. -/
def ResultCode.code : ResultCode → Byte
  | .ok => 0x00#8
  | .noMoreBlocks => 0x01#8
  | .incompleteHeader => 0x02#8
  | .invalidHeader => 0x03#8
  | .headerCsumMismatch => 0x04#8
  | .blockIncomplete => 0x05#8
  | .dataCsumMismatch => 0x06#8
  | .rangeError => 0x10#8
  | .tableFull => 0x11#8
  | .illegalCmd => 0x12#8

/-- One bit at position `i` of a register word. -/
def bitAt (i : Nat) (b : Bool) : Word := (BitVec.ofBool b).setWidth 32 <<< i

/-- `STATUS` as the word the host reads (R23); the reserved bits 7:4 and 31:20 are 0. -/
def Status.pack (st : Status) : Word :=
  bitAt 0 st.busy ||| bitAt 1 st.done ||| bitAt 2 st.found ||| bitAt 3 st.ovr
    ||| (st.result.code.setWidth 32 <<< 8)
    ||| bitAt 16 st.flags.complete ||| bitAt 17 st.flags.missingBegin
    ||| bitAt 18 st.flags.missingEnd ||| bitAt 19 st.flags.noData

/-- The `STATUS` bits R106 leaves unspecified while busy: `FOUND`, `RESULT` and bits 19:16. -/
def busyStatusMask : Word := 0x000FFF04#32

/-- `STATUS` read while busy (R106): `BUSY`, `DONE` and `OVR` exact, reserved bits 0, the rest from `free`. -/
def Status.packBusy (st : Status) (free : Word) : Word :=
  (st.pack &&& ~~~ busyStatusMask) ||| (free &&& busyStatusMask)

/-- The effect of a host write of `w` to `STATUS` (R23, R104): each W1C bit written as 1 is cleared. -/
def Status.w1c (st : Status) (w : Word) : Status :=
  { st with done := st.done && !w.getLsbD 1, ovr := st.ovr && !w.getLsbD 3 }

/-- The completeness flags of the decoded blocks (R98, R99, R100): only the first entry's `FIRST` and the last entry's
`BLKNUM` count. -/
def compFlags (table : List Entry) : CompFlags :=
  match table.head?, table.getLast? with
  | some e, some l =>
    let mb := !e.first
    let me := decide (l.blkNum ≠ 0#8)
    ⟨!mb && !me, mb, me, false⟩
  | _, _ => ⟨false, true, true, true⟩

/-- The rollover checksum (R76) as the 8-bit accumulator of R77, whose carry out is discarded. -/
def rollover (bs : List Byte) : Byte := bs.foldl (· + ·) 0#8

end Sys2Proof.Machine
end

