-- ==== Sys2Proof/Machine/Ops.lean ====
section
/-! DEFINITION. Sys2Proof/Machine/Ops.lean: the named operations over the capture memory, and the completion handshake
that takes the place of trap entry and return (60_exceptions.md): acceptance, completion, raise, acknowledgement, reset. -/

namespace Sys2Proof.Machine

open Sys2Proof

/-! ## Capture memory -/

/-- The byte at an index; none where the host has not written it since power-on (R37, R126). -/
def Memory.read : Memory → Nat → Option Byte
  | [], _ => none
  | (k, v) :: m, i => if k = i then some v else Memory.read m i

/-- Store a byte (R37 `MemWrite(i, 1, v)`), keeping the canonical form. -/
def Memory.write : Memory → Nat → Byte → Memory
  | [], i, b => [(i, b)]
  | (k, v) :: m, i, b =>
    if i < k then (i, b) :: (k, v) :: m
    else if i = k then (i, b) :: m
    else (k, v) :: Memory.write m i b

/-- The engine's read `CAP[i]` (R10, R38): a byte never written is a fault of the run (R126). -/
def Memory.fetch (m : Memory) (i : Nat) : Except Fault Byte :=
  match m.read i with
  | some b => .ok b
  | none => .error (.unwrittenCaptureByte i)

/-- The engine's `MemRead(a, n)` (R10): the bytes `CAP[a] … CAP[a+n−1]`, read in index order. -/
def Memory.fetchRange (m : Memory) (a : Nat) : Nat → Except Fault (List Byte)
  | 0 => .ok []
  | n + 1 =>
    match m.fetch a with
    | .error f => .error f
    | .ok b =>
      match Memory.fetchRange m (a + 1) n with
      | .error f => .error f
      | .ok bs => .ok (b :: bs)

/-! ## The completion handshake -/

/-- `BLOCK_COUNT` (R28): the number of valid table entries. -/
def State.blockCount (s : State) : Word := BitVec.ofNat 32 s.table.length

/-- `IRQ = DONE ∧ IE` (R34, R115). -/
def State.irq (s : State) : Bool := s.status.done && s.ie

/-- Command acceptance (R110), in one step: `PEND` and the `CMD` read-back take the opcode, `BUSY` rises, `DONE` falls,
`OVR` is unchanged. The command's delay is drawn here (log 4). -/
def State.accept (s : State) (opc : BitVec 4) : State :=
  { s with
    pend := some opc
    cmd := opc
    status := { s.status with busy := true, done := false }
    delay := Config.completionDelay s.draws
    draws := s.draws + 1 }

/-- Completion (R112), on the state that already holds the command's register, table and `CURSOR` writes: `RESULT`,
`FOUND` and `STATUS[19:16]` are written, `BUSY` falls, `PEND` empties, `DONE` rises, `OVR` is unchanged. -/
def State.complete (s : State) (code : ResultCode) (found : Bool) (flags : CompFlags) : State :=
  { s with
    status := { busy := false, done := true, found := found, ovr := s.status.ovr, result := code, flags := flags }
    pend := none
    delay := 0 }

/-- `complete <RESULT>` (R10) of a command that computes neither `FOUND` nor `STATUS[19:16]` (R35: it writes 0). -/
def State.finish (s : State) (code : ResultCode) : State := s.complete code false CompFlags.none

/-- `raise <RESULT>` (R10): the command ends at once with that code and no other state changes. -/
def State.raise (s : State) (code : ResultCode) : State := s.finish code

/-- A refused host write (R105, R47): nothing is stored and `OVR` is set. -/
def State.refuseWrite (s : State) : State := { s with status := { s.status with ovr := true } }

/-- A host write to `STATUS` (R104, R105): W1C; writing 1 to `DONE` is the acknowledgement of R114. -/
def State.writeStatus (s : State) (w : Word) : State := { s with status := s.status.w1c w }

/-- Soft reset (R108, R125): the power-on reset state, but that the capture keeps its contents. Host agent and draw
counter are no part of the block and stay. -/
def State.softReset (s : State) : State :=
  { State.resetWith s.params with cap := s.cap, host := s.host, draws := s.draws }

/-- Append a decoded block and move the cursor behind it (R90, R91): `TBL[BLOCK_COUNT] <- e`, `BLOCK_COUNT` + 1,
`CURSOR <- next`. -/
def State.appendBlock (s : State) (e : Entry) (next : Nat) : State :=
  { s with table := s.table ++ [e], cursor := BitVec.ofNat 32 next }

/-- `REG.BLOCK_COUNT = MAX_BLOCKS` (R90, R91): no free table entry. -/
def State.tableFull (s : State) : Bool := decide (s.table.length = s.params.maxBlocks.toNat)

end Sys2Proof.Machine
end

