-- ==== Sys2Proof/Machine/Operands.lean ====
section
/-! DEFINITION. Sys2Proof/Machine/Operands.lean: the commands' implicit operands and their range checks (R78, R107), the
frame fields (R54, R55), the packed table words (R66) and the register map (R19, R31, R45). -/

namespace Sys2Proof.Machine

open Sys2Proof

/-! ## Range checks -/

/-- `BUF_LEN ≤ CAP_SIZE` (R24, R78, R107). -/
def State.bufFits (s : State) : Bool := !decide (s.params.capSize.toNat < s.bufLen.toNat)

/-- `RangeOK()` (R107), the operand check of FIND_PILOT, SEEK_HEADER, DECODE and READ_BLOCKS. -/
def State.rangeOK (s : State) : Bool := s.bufFits && decide (s.cursor.toNat ≤ s.bufLen.toNat)

/-- CSUM's own check (R78): `a + k` is computed without wrap. -/
def State.csumRangeOK (s : State) : Bool :=
  s.bufFits && decide (s.argAddr.toNat + s.argLen.toNat ≤ s.bufLen.toNat)

/-- `RESULT_INDEX` for a scan's answer (R26, R74, R75): the index found, 0 when nothing was. -/
def indexOrZero : Option Nat → Word
  | some p => BitVec.ofNat 32 p
  | none => 0#32

/-! ## Frame fields -/

/-- The data size of a size byte (R54, R84): 256 if it is 0, else the byte. -/
def dataSizeOf (z : Byte) : Nat := if z = 0#8 then maxData else z.toNat

/-- The load address, little-endian (R39, R55). -/
def loadAddr (lo hi : Byte) : BitVec 16 := hi ++ lo

/-! ## Packed table words -/

/-- `TBL_W0` (R66). -/
def Entry.w0 (e : Entry) : Word := e.start

/-- `TBL_W1` (R66): `SIZEBYTE ‖ BLKNUM ‖ LOAD`. -/
def Entry.w1 (e : Entry) : Word := (e.sizeByte ++ e.blkNum ++ e.load : BitVec (8 + 8 + 16))

/-- `TBL_W2` (R66): `FIRST`, six reserved bits, `RAWLEN`, seven reserved bits, `DATASIZE`. -/
def Entry.w2 (e : Entry) : Word :=
  (BitVec.ofBool e.first ++ 0#6 ++ e.rawLen ++ 0#7 ++ e.dataSize : BitVec (1 + 6 + 9 + 7 + 9))

/-- `TBL_W3` (R66): sixteen reserved bits, `DCSUM`, `HCSUM`. -/
def Entry.w3 (e : Entry) : Word := (0#16 ++ e.dcsum ++ e.hcsum : BitVec (16 + 8 + 8))

/-- The window register of word `word` (R29): the selected entry's packed word, 0 when `TBL_INDEX ≥ BLOCK_COUNT`. -/
def State.tblWord (s : State) (word : Entry → Word) : Word :=
  match s.table[s.tblIndex.toNat]? with
  | some e => word e
  | none => 0#32

/-! ## Register map -/

/-- The register at a word-aligned offset (R19); none at a reserved offset (R31). -/
def regAt (offset : BitVec 12) : Option RegName :=
  match offset.toNat with
  | 0x000 => some .id
  | 0x004 => some .ctrl
  | 0x008 => some .cmd
  | 0x00C => some .status
  | 0x010 => some .bufLen
  | 0x014 => some .cursor
  | 0x018 => some .argAddr
  | 0x01C => some .argLen
  | 0x020 => some .resultIndex
  | 0x024 => some .csum
  | 0x028 => some .blockCount
  | 0x02C => some .tblIndex
  | 0x030 => some .tblW0
  | 0x034 => some .tblW1
  | 0x038 => some .tblW2
  | 0x03C => some .tblW3
  | 0x040 => some .cfgCapSize
  | 0x044 => some .cfgMaxBlocks
  | _ => none

/-- The offset of a register (R19), as `WR <reg>` and `RD <reg>` of R67 encode it. -/
def RegName.offset : RegName → BitVec 12
  | .id => 0x000#12
  | .ctrl => 0x004#12
  | .cmd => 0x008#12
  | .status => 0x00C#12
  | .bufLen => 0x010#12
  | .cursor => 0x014#12
  | .argAddr => 0x018#12
  | .argLen => 0x01C#12
  | .resultIndex => 0x020#12
  | .csum => 0x024#12
  | .blockCount => 0x028#12
  | .tblIndex => 0x02C#12
  | .tblW0 => 0x030#12
  | .tblW1 => 0x034#12
  | .tblW2 => 0x038#12
  | .tblW3 => 0x03C#12
  | .cfgCapSize => 0x040#12
  | .cfgMaxBlocks => 0x044#12

end Sys2Proof.Machine

/-! ## Host address map -/

namespace Sys2Proof

/-- The host address of a register offset (R7, R45). -/
def Params.regAddress (p : Params) (offset : BitVec 12) : Nat := p.regBase + offset.toNat

/-- The host address of a capture index (R7, R45). -/
def Params.capAddress (p : Params) (index : Nat) : Nat := p.capBase + index

/-- The register offset a host address names, if it lies in the 4096-byte register window (R19, R45). -/
def Params.regOffsetOf (p : Params) (addr : Nat) : Option (BitVec 12) :=
  if p.regBase ≤ addr ∧ addr < p.regBase + 4096 then some (BitVec.ofNat 12 (addr - p.regBase)) else none

/-- The capture index a host address names, if it lies in the `CAP_SIZE`-byte capture window (D28). -/
def Params.capIndexOf (p : Params) (addr : Nat) : Option Nat :=
  if p.capBase ≤ addr ∧ addr < p.capBase + p.capSize.toNat then some (addr - p.capBase) else none

/-- The transaction of a host bus write of `bits` bits of `data` at a host address (R45, R67, log 2): none where the
address lies in neither window or in both, and none for a capture access wider than the one byte that exists (R43). -/
def Params.busWrite (p : Params) (bits addr : Nat) (data : Word) : Option HostOp :=
  match p.regOffsetOf addr, p.capIndexOf addr with
  | some off, none => some (.regWrite bits off data)
  | none, some i => if bits = 8 then some (.capWrite i (data.setWidth 8)) else none
  | _, _ => none

/-- The transaction of a host bus read of `bits` bits at a host address (R45, R67, log 2), as for a write. -/
def Params.busRead (p : Params) (bits addr : Nat) : Option HostOp :=
  match p.regOffsetOf addr, p.capIndexOf addr with
  | some off, none => some (.regRead bits off)
  | none, some i => if bits = 8 then some (.capRead i) else none
  | _, _ => none

end Sys2Proof
end

