-- ==== Sys2Proof/Machine/Completeness.lean ====
section
/-! DEFINITION. Sys2Proof/Machine/Completeness.lean: the Completeness Check (43_completeness.md). -/

namespace Sys2Proof.Machine

open Sys2Proof

/-- CHECK_COMPLETE (R98): always `OK` (R99), no range check, no capture read. -/
def execCheckComplete (s : State) : Host.Outcome State Fault Refusal :=
  .next (s.complete .ok false (compFlags s.table))

end Sys2Proof.Machine
end

