-- ==== Sys2Proof/Machine/Control.lean ====
section
/-! DEFINITION. Sys2Proof/Machine/Control.lean: the control commands (44_control.md): NOP and the reserved opcodes. -/

namespace Sys2Proof.Machine

open Sys2Proof

/-- NOP (R102): the full handshake and nothing else. -/
def execNop (s : State) : Host.Outcome State Fault Refusal := .next (s.finish .ok)

/-- A reserved opcode (R64, R103): completes with `ILLEGAL_CMD` and changes no other state, whichever opcode it is. -/
def execReserved (_opc : BitVec 4) (s : State) : Host.Outcome State Fault Refusal := .next (s.raise .illegalCmd)

end Sys2Proof.Machine
end

