-- ==== Sys2Proof/Machine/Scanner.lean ====
section
/-! DEFINITION. Sys2Proof/Machine/Scanner.lean: the Frame Scanner (40_frame_sync.md): PilotScan, MagicScan and their
commands FIND_PILOT and SEEK_HEADER. Scans work on natural-number indices (R9). -/

namespace Sys2Proof.Machine

open Sys2Proof

/-- The loop of PilotScan (R69) from index `i` with the running zero count `count`, over `n` more bytes. -/
def pilotLoop (m : Memory) (i count : Nat) : Nat → Except Fault (Option Nat)
  | 0 => .ok none
  | n + 1 =>
    match m.fetch i with
    | .error f => .error f
    | .ok b =>
      let count' := if b = 0x00#8 then count + 1 else 0
      if count' = pilotLen then .ok (some (i + 1)) else pilotLoop m (i + 1) count' n

/-- `PilotScan(c, L)` (R69), the source's `findPilot`. -/
def pilotScan (m : Memory) (c L : Nat) : Except Fault (Option Nat) := pilotLoop m c 0 (L - c)

/-- Whether the bytes from index `i` are `bs`, compared in index order up to the first difference (log 7). -/
def matchesAt (m : Memory) (i : Nat) : List Byte → Except Fault Bool
  | [] => .ok true
  | b :: bs =>
    match m.fetch i with
    | .error f => .error f
    | .ok x => if x = b then matchesAt m (i + 1) bs else .ok false

/-- The loop of MagicScan (R71) over the `n` candidate indices from `i`. -/
def magicLoop (m : Memory) (i : Nat) : Nat → Except Fault (Option Nat)
  | 0 => .ok none
  | n + 1 =>
    match matchesAt m i magic with
    | .error f => .error f
    | .ok true => .ok (some i)
    | .ok false => magicLoop m (i + 1) n

/-- `MagicScan(c, L)` (R71), the source's `seekFirstHeader`: the candidates are the `i` with `c ≤ i` and `i + 5 ≤ L`. -/
def magicScan (m : Memory) (c L : Nat) : Except Fault (Option Nat) := magicLoop m c (L - c - (magicLen - 1))

/-- The end of a scan command (R74, R75): `RESULT_INDEX` and `FOUND` from the scan's answer, `OK` either way. -/
def State.scanDone (s : State) (found : Option Nat) : State :=
  { s with resultIndex := indexOrZero found }.complete .ok found.isSome CompFlags.none

/-- FIND_PILOT (R74). -/
def execFindPilot (s : State) : Host.Outcome State Fault Refusal :=
  if s.rangeOK then
    match pilotScan s.cap s.cursor.toNat s.bufLen.toNat with
    | .error f => .fault f
    | .ok p => .next (s.scanDone p)
  else .next (s.raise .rangeError)

/-- SEEK_HEADER (R75). -/
def execSeekHeader (s : State) : Host.Outcome State Fault Refusal :=
  if s.rangeOK then
    match magicScan s.cap s.cursor.toNat s.bufLen.toNat with
    | .error f => .fault f
    | .ok p => .next (s.scanDone p)
  else .next (s.raise .rangeError)

end Sys2Proof.Machine
end

