-- ==== Sys2Proof/Machine/BlockDecoder.lean ====
section
/-! DEFINITION. Sys2Proof/Machine/BlockDecoder.lean: the checksum unit's command CSUM and the Block Decoder
(41_checksum_decode.md): DecodeAt and its command DECODE. -/

namespace Sys2Proof.Machine

open Sys2Proof

/-- CSUM (R78). `CURSOR` is not checked. -/
def execCsum (s : State) : Host.Outcome State Fault Refusal :=
  if s.csumRangeOK then
    match s.cap.fetchRange s.argAddr.toNat s.argLen.toNat with
    | .error f => .fault f
    | .ok bs => .next ({ s with csum := rollover bs }.finish .ok)
  else .next (s.raise .rangeError)

/-- The length of the raw range (R87): header, data, checksum and trailer, cut at the end of the capture. -/
def rawLength (n r : Nat) : Nat := min (hdrLen + n + 1 + trailerLen) r

/-- The table entry of step 8 (R79, R87) for the frame at `s`: raw length `rawlen`, header `h`, data checksum byte
`dc`. -/
def entryOf (s rawlen : Nat) (first : Bool) (h : Header) (dc : Byte) : Entry where
  start := BitVec.ofNat 32 s
  rawLen := BitVec.ofNat 9 rawlen
  load := loadAddr h.loadLo h.loadHi
  sizeByte := h.sizeByte
  dataSize := BitVec.ofNat 9 (dataSizeOf h.sizeByte)
  blkNum := h.blkNum
  hcsum := h.hcsum
  dcsum := dc
  first := first

/-- Steps 7 and 8 (R86, R87) of the decode of the frame at `s` with header `h`. -/
def decodeData (m : Memory) (L s : Nat) (first : Bool) (h : Header) : Except Fault DecodeResult :=
  match m.fetchRange (s + hdrLen) (dataSizeOf h.sizeByte) with
  | .error f => .error f
  | .ok data =>
    match m.fetch (s + hdrLen + dataSizeOf h.sizeByte) with
    | .error f => .error f
    | .ok dc =>
      if rollover data ≠ dc then .ok (.fail .dataCsumMismatch)
      else
        let rawlen := rawLength (dataSizeOf h.sizeByte) (L - s)
        .ok (.block (entryOf s rawlen first h dc) (s + rawlen))

/-- The header bytes at offsets 5 to 9 of the frame at `s`, read in index order (R53, R83). -/
def readHeader (m : Memory) (s : Nat) : Except Fault Header :=
  match m.fetch (s + 5) with
  | .error f => .error f
  | .ok lo =>
    match m.fetch (s + 6) with
    | .error f => .error f
    | .ok hi =>
      match m.fetch (s + 7) with
      | .error f => .error f
      | .ok z =>
        match m.fetch (s + 8) with
        | .error f => .error f
        | .ok b =>
          match m.fetch (s + 9) with
          | .error f => .error f
          | .ok hc => .ok ⟨lo, hi, z, b, hc⟩

/-- The bytes the header checksum covers (R57): offsets 5 to 8. -/
def Header.covered (h : Header) : List Byte := [h.loadLo, h.loadHi, h.sizeByte, h.blkNum]

/-- Steps 4 to 6 (R83, R84, R85): the header checksum, then the bytes that data and data checksum need. -/
def decodeHeader (m : Memory) (L s : Nat) (first : Bool) : Except Fault DecodeResult :=
  match readHeader m s with
  | .error f => .error f
  | .ok h =>
    if rollover h.covered ≠ h.hcsum then .ok (.fail .headerCsumMismatch)
    else if L - s < hdrLen + dataSizeOf h.sizeByte + 1 then .ok (.fail .blockIncomplete)
    else decodeData m L s first h

/-- Steps 2 to 8 (R81 to R87) on the candidate at `s`; the first step that fails decides (R79, R116). -/
def decodeFrame (m : Memory) (L s : Nat) (first : Bool) : Except Fault DecodeResult :=
  if L - s < hdrLen then .ok (.fail .incompleteHeader)
  else
    match m.fetchRange s magicLen with
    | .error f => .error f
    | .ok bs => if bs ≠ magic then .ok (.fail .invalidHeader) else decodeHeader m L s first

/-- `DecodeAt(c, L)` (R79), the source's `decode`. Step 1 (R80): PilotScan over the whole remaining buffer, and only if
it finds nothing MagicScan. -/
def decodeAt (m : Memory) (c L : Nat) : Except Fault DecodeResult :=
  match pilotScan m c L with
  | .error f => .error f
  | .ok (some s) => decodeFrame m L s true
  | .ok none =>
    match magicScan m c L with
    | .error f => .error f
    | .ok (some s) => decodeFrame m L s false
    | .ok none => .ok (.fail .noMoreBlocks)

/-- DECODE (R90). -/
def execDecode (s : State) : Host.Outcome State Fault Refusal :=
  if s.rangeOK then
    match decodeAt s.cap s.cursor.toNat s.bufLen.toNat with
    | .error f => .fault f
    | .ok (.fail code) => .next (s.finish code)
    | .ok (.block e next) =>
      if s.tableFull then .next (s.raise .tableFull) else .next ((s.appendBlock e next).finish .ok)
  else .next (s.raise .rangeError)

end Sys2Proof.Machine
end

