-- ==== Sys2Proof/Machine/Driver.lean ====
section
/-! DEFINITION. Sys2Proof/Machine/Driver.lean: the Scan Driver (42_driver.md): READ_BLOCKS and CLEAR_TABLE. -/

namespace Sys2Proof.Machine

open Sys2Proof

/-- The loop of READ_BLOCKS (R91): the state it leaves and the code that stopped it. The last argument bounds the bytes
that remain, `BUF_LEN − CURSOR`; each decoded block takes at least 12 (R93). At 0 nothing remains, and an empty
remaining buffer is `NO_MORE_BLOCKS` (R94). -/
def readLoop (s : State) : Nat → Except Fault (State × ResultCode)
  | 0 => .ok (s, .noMoreBlocks)
  | n + 1 =>
    match decodeAt s.cap s.cursor.toNat s.bufLen.toNat with
    | .error f => .error f
    | .ok (.fail code) => .ok (s, code)
    | .ok (.block e next) => if s.tableFull then .ok (s, .tableFull) else readLoop (s.appendBlock e next) n

/-- READ_BLOCKS (R91): a failed range check leaves the table as it was; otherwise the pass starts with an empty table. -/
def execReadBlocks (s : State) : Host.Outcome State Fault Refusal :=
  if s.rangeOK then
    match readLoop { s with table := [] } (s.bufLen.toNat - s.cursor.toNat) with
    | .error f => .fault f
    | .ok (t, code) => .next (t.finish code)
  else .next (s.raise .rangeError)

/-- CLEAR_TABLE (R97): no range check, no capture read. -/
def execClearTable (s : State) : Host.Outcome State Fault Refusal :=
  .next ({ s with table := [] }.finish .ok)

end Sys2Proof.Machine
end

