-- ==== Sys2Proof/Machine/Dispatch.lean ====
section
/-! DEFINITION. Sys2Proof/Machine/Dispatch.lean: the engine's evaluation of a command (R111), one arm per constructor. -/

namespace Sys2Proof.Machine

open Sys2Proof

def exec (i : Instr) (s : State) : Host.Outcome State Fault Refusal :=
  match i with
  | .nop => Sys2Proof.Machine.execNop s
  | .csum => Sys2Proof.Machine.execCsum s
  | .findPilot => Sys2Proof.Machine.execFindPilot s
  | .seekHeader => Sys2Proof.Machine.execSeekHeader s
  | .decode => Sys2Proof.Machine.execDecode s
  | .readBlocks => Sys2Proof.Machine.execReadBlocks s
  | .checkComplete => Sys2Proof.Machine.execCheckComplete s
  | .clearTable => Sys2Proof.Machine.execClearTable s
  | .reserved opc => Sys2Proof.Machine.execReserved opc s

end Sys2Proof.Machine
end

