-- ==== Sys2Proof/Machine/HostPort.lean ====
section
/-! DEFINITION. Sys2Proof/Machine/HostPort.lean: the host side of the block (44_control.md, 20_memory.md): register reads
and writes while idle and while busy, capture accesses, and the lines of a host program (R67, R68). -/

namespace Sys2Proof.Machine

open Sys2Proof

/-! ## Reads -/

/-- The current value of a register (R19 to R30, R104). -/
def State.readReg (s : State) : RegName → Word
  | .id => 0x4B435331#32
  | .ctrl => bitAt 0 s.ie
  | .cmd => s.cmd.setWidth 32
  | .status => s.status.pack
  | .bufLen => s.bufLen
  | .cursor => s.cursor
  | .argAddr => s.argAddr
  | .argLen => s.argLen
  | .resultIndex => s.resultIndex
  | .csum => s.csum.setWidth 32
  | .blockCount => s.blockCount
  | .tblIndex => s.tblIndex
  | .tblW0 => s.tblWord Entry.w0
  | .tblW1 => s.tblWord Entry.w1
  | .tblW2 => s.tblWord Entry.w2
  | .tblW3 => s.tblWord Entry.w3
  | .cfgCapSize => s.params.capSize
  | .cfgMaxBlocks => s.params.maxBlocks

/-- What a register reads while the engine is busy (R106): `free` where the value is unspecified, exact elsewhere. -/
def State.readRegBusy (s : State) (free : Word) : RegName → Word
  | .status => s.status.packBusy free
  | .cursor => free
  | .resultIndex => free
  | .csum => free
  | .blockCount => free
  | .tblW0 => free
  | .tblW1 => free
  | .tblW2 => free
  | .tblW3 => free
  | .id => s.readReg .id
  | .ctrl => s.readReg .ctrl
  | .cmd => s.readReg .cmd
  | .bufLen => s.readReg .bufLen
  | .argAddr => s.readReg .argAddr
  | .argLen => s.readReg .argLen
  | .tblIndex => s.readReg .tblIndex
  | .cfgCapSize => s.readReg .cfgCapSize
  | .cfgMaxBlocks => s.readReg .cfgMaxBlocks

/-- The value a host register read returns: 0 for an access that is not an aligned word (R42) and at a reserved offset
(R31), the register's value while idle (R104), R106's while busy. -/
def State.regReadValue (s : State) (bits : Nat) (offset : BitVec 12) : Word :=
  if wordAligned bits offset then
    match regAt offset with
    | none => 0#32
    | some r => if s.status.busy then s.readRegBusy (Config.busyRead s.draws) r else s.readReg r
  else 0#32

/-- The byte a host capture read returns (R37): 0 outside the memory, the stored byte, and a free value for a byte never
written (I2, log 6). -/
def State.capReadValue (s : State) (index : Nat) : Byte :=
  if s.params.capSize.toNat ≤ index then 0#8
  else
    match s.cap.read index with
    | some b => b
    | none => Config.powerOnByte index

/-- The next free value is another one: each busy read draws independently (I3). -/
def State.drawn (s : State) : State := if s.status.busy then { s with draws := s.draws + 1 } else s

/-! ## Writes -/

/-- A host write to `CTRL` (R21, R104, R105, R108), at any time: `SRST` written as 1 is a soft reset and discards `IE`. -/
def State.writeCtrl (s : State) (w : Word) : State :=
  if w.getLsbD 1 then s.softReset else { s with ie := w.getLsbD 0 }

/-- A host write of an operand register or `CMD`: it acts while idle (R104), and is refused while busy (R105). -/
def State.writeIdle (s : State) (act : State) : State := if s.status.busy then s.refuseWrite else act

/-- A host write to a register (R104, R105). Writes to RO registers are ignored and do not set `OVR`. -/
def State.writeReg (s : State) (w : Word) : RegName → State
  | .ctrl => s.writeCtrl w
  | .status => s.writeStatus w
  | .cmd => s.writeIdle (s.accept (opcOfWord w))
  | .bufLen => s.writeIdle { s with bufLen := w }
  | .cursor => s.writeIdle { s with cursor := w }
  | .argAddr => s.writeIdle { s with argAddr := w }
  | .argLen => s.writeIdle { s with argLen := w }
  | .tblIndex => s.writeIdle { s with tblIndex := w }
  | .id => s
  | .resultIndex => s
  | .csum => s
  | .blockCount => s
  | .tblW0 => s
  | .tblW1 => s
  | .tblW2 => s
  | .tblW3 => s
  | .cfgCapSize => s
  | .cfgMaxBlocks => s

/-- A host register write transaction: ignored unless an aligned word (R42), and ignored at a reserved offset (R31). -/
def State.regWrite (s : State) (bits : Nat) (offset : BitVec 12) (data : Word) : State :=
  if wordAligned bits offset then
    match regAt offset with
    | none => s
    | some r => s.writeReg data r
  else s

/-- A host capture write (R37): refused while busy (R47, R105, log 9), ignored outside the memory, else stored. -/
def State.capWrite (s : State) (index : Nat) (b : Byte) : State :=
  if s.status.busy then s.refuseWrite
  else if s.params.capSize.toNat ≤ index then s
  else { s with cap := s.cap.write index b }

/-! ## The host agent -/

/-- The line the host makes next; none when its program has ended. -/
def State.hostLine (s : State) : Option HostLine := s.host.script[s.host.pos]?

/-- The host goes on at a line. -/
def State.hostAt (s : State) (pos : Nat) : State := { s with host := { s.host with pos := pos } }

/-- The host keeps the value a read returned (log 3). -/
def State.hostGot (s : State) (v : Word) : State := { s with host := { s.host with reads := v :: s.host.reads } }

/-- The effect of one bus transaction (R67). -/
def State.access (s : State) : HostOp → State
  | .regWrite bits offset data => s.regWrite bits offset data
  | .regRead bits offset => s.drawn.hostGot (s.regReadValue bits offset)
  | .capWrite index value => s.capWrite index value
  | .capRead index => s.hostGot ((s.capReadValue index).setWidth 32)

/-- The read transaction of `RD STATUS`. -/
def readStatusOp : HostOp := .regRead 32 RegName.status.offset

/-- The value `RD STATUS` returns. -/
def State.statusSeen (s : State) : Word := s.regReadValue 32 RegName.status.offset

/-- One line of the host program (R67, R68). -/
def State.runLine (s : State) : HostLine → State
  | .op a => (s.access a).hostAt (s.host.pos + 1)
  | .wait => (s.access readStatusOp).hostAt (if s.statusSeen.getLsbD 1 then s.host.pos + 1 else s.host.pos)
  | .brok target =>
    (s.access readStatusOp).hostAt (if s.statusSeen.extractLsb' 8 8 = 0#8 then target else s.host.pos + 1)

/-- One host access: it uses up one of the accesses that come before a pending command's completion (log 4). -/
def State.hostStep (s : State) (l : HostLine) : State := { s with delay := s.delay - 1 }.runLine l

/-! ## Host-program notation -/

/-- `WR <reg>, <value>` (R67). -/
def wr (r : RegName) (w : Word) : HostLine := .op (.regWrite 32 r.offset w)

/-- `RD <reg>` (R67). -/
def rd (r : RegName) : HostLine := .op (.regRead 32 r.offset)

/-- `WRB <index>, <byte>` (R67). -/
def wrb (i : Nat) (b : Byte) : HostLine := .op (.capWrite i b)

/-- `RDB <index>` (R67). -/
def rdb (i : Nat) : HostLine := .op (.capRead i)

/-- `CMD <mnemonic>` (R68). -/
def cmdLine (i : Instr) : HostLine := .op (encodeOp i)

/-- `RUN <mnemonic>` (R68). -/
def runLines (i : Instr) : List HostLine := [cmdLine i, .wait]

/-- `ACK` (R68): clears `DONE`. -/
def ackLine : HostLine := wr .status 0x00000002#32

/-- `LOADCAP <i>, <b0> <b1> …` (R68). -/
def loadCapLines (i : Nat) : List Byte → List HostLine
  | [] => []
  | b :: bs => wrb i b :: loadCapLines (i + 1) bs

/-- `SELECT <j>` (R68). -/
def selectLine (j : Word) : HostLine := wr .tblIndex j

end Sys2Proof.Machine
end

