-- ==== Sys2Proof/Machine/HostOutput.lean ====
section
/-! DEFINITION. Sys2Proof/Machine/HostOutput.lean: what the surrounding software makes of the block's results (R13 to
R15). It is outside the block (R5): functions of a state, which no step uses (log 20). -/

namespace Sys2Proof.Machine

open Sys2Proof

/-- An entry's `rawData` as the host reads it back: `MemRead(START, RAWLEN)` (R13). -/
def State.rawData (s : State) (e : Entry) : List Byte :=
  (List.range e.rawLen.toNat).map (fun j => s.capReadValue (e.start.toNat + j))

/-- The concatenated `rawData` of every retained block (R13, R14). -/
def State.allRawData (s : State) : List Byte := s.table.flatMap s.rawData

/-- What the host writes: a fresh file or an append to an existing one. -/
inductive HostFile where
  | fresh (bytes : List Byte)
  | append (bytes : List Byte)
  deriving DecidableEq, Repr

/-- Fresh with the synthetic pilot if the first retained block has `FIRST`, else append (R13, R14, C6). -/
def State.outputFile (s : State) : HostFile :=
  match s.table with
  | e :: _ => if e.first then .fresh (List.replicate pilotLen 0x00#8 ++ s.allRawData) else .append s.allRawData
  | [] => .append []

/-- Written only when `COMPLETE = 1`, or when the caller asks for an output target (R14, D27). `COMPLETE` is 0 until
CHECK_COMPLETE has found the capture complete, and again after any other command (R35, R112). -/
def State.hostWrites (s : State) (targetAsked : Bool) : Option HostFile :=
  if s.status.flags.complete || targetAsked then some s.outputFile else none

/-- The per-block items of the report (R15). -/
structure BlockReport where
  load : BitVec 16
  blkNum : Byte
  dataSize : Nat
  rawSize : Nat
  dcsum : Byte
  deriving DecidableEq, Repr

/-- The reporting surface of R15: the blocks, their total number, and which of the five messages are printed. -/
structure HostReport where
  blocks : List BlockReport
  total : Nat
  /-- "missing pilot tone" (I15, log 20). -/
  missingPilot : Bool
  /-- "missing beginning of file". -/
  missingBegin : Bool
  /-- "missing end of file". -/
  missingEnd : Bool
  /-- "all blocks appear to be accounted for". -/
  allAccounted : Bool
  /-- "found no data". -/
  noData : Bool
  deriving DecidableEq, Repr

/-- A block's line of the report (R15). -/
def Entry.report (e : Entry) : BlockReport :=
  ⟨e.load, e.blkNum, e.dataSize.toNat, e.rawLen.toNat, e.dcsum⟩

/-- The packed words of an entry (R66). -/
def Entry.words (e : Entry) : List Word := [e.w0, e.w1, e.w2, e.w3]

/-- The bytes of the capture, as the host reads them back below `BUF_LEN` (R24, R37). -/
def State.captureSeen (s : State) : List Byte := (List.range s.bufLen.toNat).map s.capReadValue

/-- The host's report over the current table (R15). Four messages are printed where their bit of `STATUS[19:16]` is 1
(R101): after CHECK_COMPLETE, and none after any other command (R35; log 23 on the zero-block message). The condition of
"missing pilot tone" is a free value, so any condition on what the host reads is one of these (I15, log 20). -/
def State.report (s : State) : HostReport where
  blocks := s.table.map Entry.report
  total := s.table.length
  missingPilot := Config.missingPilotTone (s.status.pack :: s.table.flatMap Entry.words) s.captureSeen
  missingBegin := s.status.flags.missingBegin
  missingEnd := s.status.flags.missingEnd
  allAccounted := s.status.flags.complete
  noData := s.status.flags.noData

end Sys2Proof.Machine
end

