-- ==== Sys2Proof/Machine/Step.lean ====
section
/-! DEFINITION. Sys2Proof/Machine/Step.lean: one step of the system: an engine completion or one host access, in a total
order that the state's `delay` fixes (R48, R111, R117, log 4). -/

namespace Sys2Proof.Machine

open Sys2Proof

/-- Which agent moves. -/
inductive Move where
  /-- The engine evaluates the pending opcode and completes (R111). -/
  | engine (opc : BitVec 4)
  /-- The host makes the next line of its program. -/
  | host (l : HostLine)
  /-- Neither has a step: nothing is pending and the host's program has ended (R123). -/
  | idle
  deriving DecidableEq, Repr

/-- The agent that moves next: with both able to, the host as long as `delay` is not used up. -/
def State.move (s : State) : Move :=
  match s.pend, s.hostLine with
  | none, none => .idle
  | none, some l => .host l
  | some opc, none => .engine opc
  | some opc, some l => if s.delay = 0 then .engine opc else .host l

/-- One step. An idle block does nothing (R123). -/
def step (s : State) : Host.Outcome State Fault Refusal :=
  match s.move with
  | .engine opc => exec (decodeOpc opc) s
  | .host l => .next (s.hostStep l)
  | .idle => .next s

/-- The host is given a program, at its first line (log 3, log 12). -/
def State.withScript (s : State) (lines : List HostLine) : State := { s with host := ⟨lines, 0, []⟩ }

/-- The state in which the very next step runs the command of the table's bits: the command accepted (R110), with no host
access before its completion (log 12). -/
def State.withFetchWord (s : State) (nbits w : Nat) : State :=
  { s.accept (opcOfWord (tableWord nbits w)) with delay := 0, draws := s.draws }

end Sys2Proof.Machine
end

