-- ==== Sys2Proof/Safety.lean ====
section
/-! DEFINITION. Sys2Proof/Safety.lean: the terms claims about the machine are stated in: the capture's bytes and the
spec's closed forms over them, what no command changes, the invariant of every step, and chains of commands. -/

namespace Sys2Proof.Machine

open Sys2Proof

/-! ## The capture -/

/-- `CAP[i]` as a claim names it: the stored byte. It says nothing about a byte never written (there it is 0), so a
claim that uses it holds that byte written or does not depend on it. -/
def Memory.byteAt (m : Memory) (i : Nat) : Byte := (m.read i).getD 0#8

/-- Every byte of `CAP[a … b−1]` has been written (R126, R127). -/
def Memory.Written (m : Memory) (a b : Nat) : Prop := ∀ i, a ≤ i → i < b → (m.read i).isSome

/-- Two captures hold the same on `CAP[a … b−1]`. -/
def Memory.AgreeOn (m m' : Memory) (a b : Nat) : Prop := ∀ i, a ≤ i → i < b → m.read i = m'.read i

/-- `MemRead(a, n)` as a claim names it. -/
def Memory.slice (m : Memory) (a n : Nat) : List Byte := (List.range n).map (fun j => m.byteAt (a + j))

/-! ## The scans' closed forms -/

/-- `p` ends a run of 256 zero bytes inside `CAP[c … L−1]` (R70). -/
def PilotAt (m : Memory) (c L p : Nat) : Prop :=
  c + 256 ≤ p ∧ p ≤ L ∧ ∀ j, p - 256 ≤ j → j < p → m.byteAt j = 0x00#8

/-- The magic stands at `i` inside `CAP[c … L−1]` (R71). -/
def MagicAt (m : Memory) (c L i : Nat) : Prop :=
  c ≤ i ∧ i + 5 ≤ L ∧ m.slice i 5 = [0x00#8, 0xFF#8, 0xFF#8, 0xFF#8, 0xFF#8]

/-- `x` is the least number with the property. -/
def Least (P : Nat → Prop) (x : Nat) : Prop := P x ∧ ∀ y, P y → x ≤ y

/-- `r` is the least number with the property, absent if there is none (`⊥`, R10). -/
def LeastOrNone (P : Nat → Prop) : Option Nat → Prop
  | some x => Least P x
  | none => ∀ y, ¬ P y

/-! ## Checksums and frames -/

/-- The rollover checksum as R76's loop states it: add, and subtract 256 when the sum reaches 256. -/
def rolloverLoop : Nat → List Byte → Nat
  | acc, [] => acc
  | acc, b :: bs => rolloverLoop (if acc + b.toNat ≥ 256 then acc + b.toNat - 256 else acc + b.toNat) bs

/-- The sum of the byte values, mod 256 (R76). -/
def sumMod256 (bs : List Byte) : Nat := (bs.map BitVec.toNat).sum % 256

/-- The data size of the frame at `s` (R54). -/
def Memory.sizeAt (m : Memory) (s : Nat) : Nat :=
  if m.byteAt (s + 7) = 0#8 then 256 else (m.byteAt (s + 7)).toNat

/-- The header checksum of the frame at `s` matches (R57). -/
def Memory.HeaderOk (m : Memory) (s : Nat) : Prop := sumMod256 (m.slice (s + 5) 4) = (m.byteAt (s + 9)).toNat

/-- The data checksum of the frame at `s` matches (R58). -/
def Memory.DataOk (m : Memory) (s : Nat) : Prop :=
  sumMod256 (m.slice (s + 10) (m.sizeAt s)) = (m.byteAt (s + 10 + m.sizeAt s)).toNat

/-- A frame is valid at `s` in a capture that ends at `L` (R61). -/
def Memory.ValidFrame (m : Memory) (L s : Nat) : Prop :=
  s + 11 + m.sizeAt s ≤ L ∧ m.slice s 5 = [0x00#8, 0xFF#8, 0xFF#8, 0xFF#8, 0xFF#8] ∧ m.HeaderOk s ∧ m.DataOk s

/-- The raw length of the frame at `s` in a capture that ends at `L` (R87): 21 + n, cut at the end of the capture. -/
def Memory.rawLenAt (m : Memory) (L s : Nat) : Nat := min (21 + m.sizeAt s) (L - s)

/-- Entry `e` is that of the frame at `s` (R79): every field as the rule gives it. -/
def Memory.IsEntryOf (m : Memory) (L s : Nat) (first : Bool) (e : Entry) : Prop :=
  e.start.toNat = s ∧ e.rawLen.toNat = m.rawLenAt L s ∧
  e.load.toNat = (m.byteAt (s + 5)).toNat + 256 * (m.byteAt (s + 6)).toNat ∧
  e.sizeByte = m.byteAt (s + 7) ∧ e.dataSize.toNat = m.sizeAt s ∧ e.blkNum = m.byteAt (s + 8) ∧
  e.hcsum = m.byteAt (s + 9) ∧ e.dcsum = m.byteAt (s + 10 + m.sizeAt s) ∧ e.first = first

/-! ## Ranges -/

/-- `RangeOK()` as R107 writes it. -/
def State.InRange (s : State) : Prop :=
  s.bufLen.toNat ≤ s.params.capSize.toNat ∧ s.cursor.toNat ≤ s.bufLen.toNat

/-- CSUM's range check as R78 writes it. -/
def State.CsumInRange (s : State) : Prop :=
  s.bufLen.toNat ≤ s.params.capSize.toNat ∧ s.argAddr.toNat + s.argLen.toNat ≤ s.bufLen.toNat

/-! ## Frames of the engine -/

/-- What no command changes: the parameters, `CTRL`, the `CMD` read-back, the operand registers but `CURSOR`, every byte
of the capture, the host, and the draw counter. -/
structure Untouched (s t : State) : Prop where
  params : t.params = s.params
  ie : t.ie = s.ie
  cmd : t.cmd = s.cmd
  bufLen : t.bufLen = s.bufLen
  argAddr : t.argAddr = s.argAddr
  argLen : t.argLen = s.argLen
  tblIndex : t.tblIndex = s.tblIndex
  cap : ∀ a, t.cap.read a = s.cap.read a
  host : t.host = s.host
  draws : t.draws = s.draws

/-- The result registers and the table, which only the commands whose rules name them write. -/
structure ResultsKept (s t : State) : Prop where
  cursor : t.cursor = s.cursor
  resultIndex : t.resultIndex = s.resultIndex
  csum : t.csum = s.csum
  table : t.table = s.table

/-- `STATUS` and `PEND` after a completion (R112) with the given code, `FOUND` and `STATUS[19:16]`; `OVR` as before. -/
structure Completed (s t : State) (code : ResultCode) (found : Bool) (flags : CompFlags) : Prop where
  busy : t.status.busy = false
  pend : t.pend = none
  done : t.status.done = true
  result : t.status.result = code
  found : t.status.found = found
  flags : t.status.flags = flags
  ovr : t.status.ovr = s.status.ovr

/-! ## The invariant -/

/-- The bounds of a table entry (R32, R54, R88). -/
structure Entry.Wf (e : Entry) : Prop where
  size : e.dataSize.toNat = dataSizeOf e.sizeByte
  rawMin : 11 + e.dataSize.toNat ≤ e.rawLen.toNat
  rawMax : e.rawLen.toNat ≤ 21 + e.dataSize.toNat
  inside : e.start.toNat + e.rawLen.toNat < 2 ^ 32

/-- What every reachable state of the block meets. -/
structure State.Inv (s : State) : Prop where
  /-- The sizes are within R7's bounds. -/
  params : s.params.wf
  /-- The capture is in canonical form. -/
  capWf : s.cap.wf
  /-- Only indices below `CAP_SIZE` are ever stored (R37). -/
  capBound : ∀ c ∈ s.cap, c.1 < s.params.capSize.toNat
  /-- `BUSY = 1 ⇔ PEND ≠ nothing` (R33). -/
  busyPend : s.status.busy = s.pend.isSome
  /-- While busy, `DONE = 0` (R106). -/
  busyNotDone : s.status.busy = true → s.status.done = false
  /-- `BLOCK_COUNT ≤ MAX_BLOCKS` (R28). -/
  tableBound : s.table.length ≤ s.params.maxBlocks.toNat
  /-- Every entry is within its bounds (R32). -/
  entries : ∀ e ∈ s.table, e.Wf
  /-- No delay is left over while idle (log 4). -/
  idleDelay : s.pend = none → s.delay = 0

/-! ## Chains of commands -/

/-- The entries are those of successive decodes (R91): the first from index `c`, each next one from the index the decode
before it answered, and the last answers `f`. -/
def DecodedFrom (m : Memory) (L : Nat) : Nat → List Entry → Nat → Prop
  | c, [], f => f = c
  | c, e :: es, f => ∃ next, decodeAt m c L = .ok (.block e next) ∧ DecodedFrom m L next es f

/-- DECODE repeated until one completes with a result other than `OK` (R95): the state it ends in. -/
inductive DecodeChain : State → State → Prop where
  | stop {s t : State} : exec .decode s = .next t → t.status.result ≠ .ok → DecodeChain s t
  | more {s t u : State} : exec .decode s = .next t → t.status.result = .ok → DecodeChain t u → DecodeChain s u

/-! ## Synthetic frames -/

/-- What a tape block carries: its load address bytes, block number, and 1 to 256 data bytes (R53). -/
structure TapeBlock where
  loadLo : Byte
  loadHi : Byte
  blkNum : Byte
  data : List Byte
  deriving DecidableEq, Repr

/-- A block holds 1 to 256 data bytes (R54). -/
def TapeBlock.Wf (b : TapeBlock) : Prop := 1 ≤ b.data.length ∧ b.data.length ≤ 256

/-- The size byte of a block: 0 stands for 256 (R54). -/
def TapeBlock.sizeByte (b : TapeBlock) : Byte := BitVec.ofNat 8 b.data.length

/-- A byte whose value is the sum of the given bytes mod 256 (R76). -/
def checkByte (bs : List Byte) : Byte := BitVec.ofNat 8 (sumMod256 bs)

/-- The frame of a block (R53): magic, header, header checksum, data, data checksum, ten zero trailer bytes. -/
def TapeBlock.frame (b : TapeBlock) : List Byte :=
  [0x00#8, 0xFF#8, 0xFF#8, 0xFF#8, 0xFF#8, b.loadLo, b.loadHi, b.sizeByte, b.blkNum,
    checkByte [b.loadLo, b.loadHi, b.sizeByte, b.blkNum]]
    ++ b.data ++ [checkByte b.data] ++ List.replicate 10 0x00#8

/-- A tape: the frames one after the other, after a pilot of 256 zero bytes if there is one. -/
def tapeBytes (pilot : Bool) (bs : List TapeBlock) : List Byte :=
  (if pilot then List.replicate 256 0x00#8 else []) ++ bs.flatMap TapeBlock.frame

/-- The capture holds exactly these bytes from index 0 on. -/
def Memory.Holds (m : Memory) (bytes : List Byte) : Prop := ∀ i, i < bytes.length → m.read i = bytes[i]?

end Sys2Proof.Machine
end

