-- ==== Sys2Proof/Certificates/Slice0/Obligations.lean ====
section
/-! DEFINITION. Sys2Proof/Certificates/Slice0/Obligations.lean: the statements about the machine. Each docstring names the
rule of spec/ it formalises; a docstring that says "model's choice" names the log entry it rests on. -/

open Sys2Proof Sys2Proof.Machine

/-! ## Encoding -/

/-- Decoding what the encoder writes for a well-formed command gives the command back: as a bus transaction, as a `CMD`
word and as a table word (R62, R63); and from an idle state that transaction is accepted (R110) and, with no host access
to come, the very next step runs the command (R111). -/
def Obligations.EncodedCommandDecodesBack : Prop :=
  ∀ i : Instr, i.wf = true →
    decodeOp (encodeOp i) = .ok i ∧ decodeWord (encode i) = i ∧ decodeTableWord 32 (encode i).toNat = some i ∧
    decodeOpc i.opc = i ∧
    ∀ s : State, s.status.busy = false →
      (s.access (encodeOp i)).pend = some i.opc ∧
      (s.hostLine = none → step (s.access (encodeOp i)) = exec i (s.access (encodeOp i)))

/-- R62: one command format. A transaction is a command exactly when it is a 32-bit write to offset 0x008; only bits 3:0
of the word count; the command is well-formed and its opcode is those bits. -/
def Obligations.OneCommandFormat : Prop :=
  (∀ op i, decodeOp op = .ok i ↔ ∃ w : Word, op = .regWrite 32 0x008#12 w ∧ i = decodeWord w) ∧
  (∀ w v : Word, w &&& 0xF#32 = v &&& 0xF#32 → decodeWord w = decodeWord v) ∧
  (∀ w : Word, (decodeWord w).wf = true ∧ encode (decodeWord w) = w &&& 0xF#32)

/-- Words written out from the opcode map of R63 and the vectors T2 to T4 decode to their commands. -/
def Obligations.SpecCommandWordsDecode : Prop :=
  decodeTableWord 32 0x00000000 = some .nop ∧ decodeTableWord 32 0x00000001 = some .csum ∧
  decodeTableWord 32 0x00000002 = some .findPilot ∧ decodeTableWord 32 0x00000003 = some .seekHeader ∧
  decodeTableWord 32 0x00000004 = some .decode ∧ decodeTableWord 32 0x00000005 = some .readBlocks ∧
  decodeTableWord 32 0x00000006 = some .checkComplete ∧ decodeTableWord 32 0x00000017 = some .clearTable ∧
  decodeTableWord 32 0x00000018 = some (.reserved 0x8#4) ∧ decodeTableWord 32 0x0000000F = some (.reserved 0xF#4)

/-! ## Steps and the handshake -/

/-- When the pending word decodes to a command and the engine is the one to move, the step is exec of it at that very
state (R111); so is the step right after `withFetchWord`. -/
def Obligations.StepRunsPendingCommand : Prop :=
  (∀ (s : State) (opc : BitVec 4), s.pend = some opc → s.hostLine = none ∨ s.delay = 0 →
    step s = exec (decodeOpc opc) s) ∧
  (∀ (s : State) (nbits w : Nat) (i : Instr), decodeTableWord nbits w = some i →
    step (s.withFetchWord nbits w) = exec i (s.withFetchWord nbits w))

/-- Both orders of a completion and a host access exist (R117; which one a state takes is the model's `delay`, log 4):
with a command pending and a host access to make, the engine moves first in one state and the host in the other. With
nothing pending the engine has no step (R111). A host line that is one bus transaction makes exactly that access (R67)
and goes on at the next line (log 3), with one of the accesses before the completion used up (log 4). That a step exists
when neither can move, and leaves the state as it is, is the model's choice (log 13). -/
def Obligations.EitherAgentMayMoveFirst : Prop :=
  (∀ (s : State) (opc : BitVec 4) (l : HostLine), s.pend = some opc → s.hostLine = some l →
    (s.delay = 0 → step s = exec (decodeOpc opc) s) ∧ (s.delay ≠ 0 → step s = .next (s.hostStep l))) ∧
  (∀ (s : State) (l : HostLine), s.pend = none → s.hostLine = some l → step s = .next (s.hostStep l)) ∧
  (∀ (s : State) (a : HostOp), let t := State.access { s with delay := s.delay - 1 } a
    s.hostStep (.op a) = { t with host := { t.host with pos := s.host.pos + 1 } }) ∧
  (∀ s : State, s.pend = none → s.hostLine = none → step s = .next s)

/-- R110: an aligned write to `CMD` while idle is accepted, in one step; while busy it is refused. Everything the rule
does not name stays. -/
def Obligations.CmdWriteIsAccepted : Prop :=
  ∀ (s : State) (w : Word), let t := s.access (.regWrite 32 0x008#12 w)
  (s.status.busy = false →
    t.pend = some (w.extractLsb' 0 4) ∧ t.cmd = w.extractLsb' 0 4 ∧ t.status.busy = true ∧ t.status.done = false ∧
    t.irq = false ∧ t.status.ovr = s.status.ovr ∧
    t.bufLen = s.bufLen ∧ t.cursor = s.cursor ∧ t.argAddr = s.argAddr ∧ t.argLen = s.argLen ∧
    t.tblIndex = s.tblIndex ∧ t.table = s.table ∧ t.ie = s.ie ∧ t.resultIndex = s.resultIndex ∧ t.csum = s.csum ∧
    t.params = s.params ∧ t.host = s.host ∧ ∀ a, t.cap.read a = s.cap.read a) ∧
  (s.status.busy = true → t = s.refuseWrite)

/-- Whatever command completes: `BUSY` falls, `PEND` empties, `DONE` rises, `OVR` is unchanged, `IRQ` is then `IE`;
`FOUND` only by the two scans and `STATUS[19:16]` only by CHECK_COMPLETE (R112, R35). -/
def Obligations.EveryCompletionWritesStatus : Prop :=
  ∀ (i : Instr) (s t : State), exec i s = .next t →
    t.status.busy = false ∧ t.pend = none ∧ t.status.done = true ∧ t.status.ovr = s.status.ovr ∧ t.irq = s.ie ∧
    (t.status.found = true → i = .findPilot ∨ i = .seekHeader) ∧
    (t.status.flags ≠ CompFlags.none → i = .checkComplete)

/-- The frame of every command: no command changes the parameters, `CTRL`, the `CMD` read-back, `BUF_LEN`, `ARG_ADDR`,
`ARG_LEN`, `TBL_INDEX`, any capture byte, or the host; `RESULT_INDEX` is written only by the two scans (R26), `CSUM` only
by CSUM (R27), `CURSOR` only by DECODE and READ_BLOCKS (R18), the table only by those and CLEAR_TABLE (R28). -/
def Obligations.CommandsWriteOnlyTheirOwnResults : Prop :=
  ∀ (i : Instr) (s t : State), exec i s = .next t →
    Untouched s t ∧
    (t.resultIndex ≠ s.resultIndex → i = .findPilot ∨ i = .seekHeader) ∧
    (t.csum ≠ s.csum → i = .csum) ∧
    (t.cursor ≠ s.cursor → i = .decode ∨ i = .readBlocks) ∧
    (t.table ≠ s.table → i = .decode ∨ i = .readBlocks ∨ i = .clearTable)

/-- R18: `CURSOR` moves only forward and never beyond `BUF_LEN` when a command moves it. -/
def Obligations.CursorOnlyMovesForward : Prop :=
  ∀ (i : Instr) (s t : State), exec i s = .next t → t.cursor ≠ s.cursor →
    (i = .decode ∨ i = .readBlocks) ∧ s.cursor.toNat < t.cursor.toNat ∧ t.cursor.toNat ≤ s.bufLen.toNat ∧
    s.bufLen.toNat ≤ s.params.capSize.toNat

/-- On a capture whose bytes below `BUF_LEN` are all written, every command of the map completes (R113); and whenever one
does not, it is because a byte below `BUF_LEN` was never written (R126). -/
def Obligations.EveryCommandCompletesOnWrittenCapture : Prop :=
  (∀ (i : Instr) (s : State), s.cap.Written 0 s.bufLen.toNat → ∃ t, exec i s = .next t) ∧
  (∀ (i : Instr) (s : State), (∀ t, exec i s ≠ .next t) →
    ∃ j, j < s.bufLen.toNat ∧ s.cap.read j = none ∧ exec i s = .fault (.unwrittenCaptureByte j))

/-- R113: every accepted command completes unless a soft reset abandons it. Within `delay` host accesses, either the
command has been abandoned, or it is still pending and the very next step is its evaluation. The finite delay is the
model's choice (log 4). -/
def Obligations.AcceptedCommandIsEvaluated : Prop :=
  ∀ (s : State) (opc : BitVec 4), s.status.busy = true → s.pend = some opc →
    ∃ k t, k ≤ s.delay ∧ Host.Core.run core k s = .next t ∧
      (t.pend = none ∨ (t.pend = some opc ∧ step t = exec (decodeOpc opc) t))

/-! ## NOP, reserved opcodes, CLEAR_TABLE, CHECK_COMPLETE -/

/-- R102: NOP completes with `OK` and writes nothing else; its issue clears `DONE`, so `IRQ` falls, and its completion sets
`DONE` and raises `IRQ` if `IE = 1`; from reset, `WR CMD, 0` and its completion give `STATUS = 0x00000002`. -/
def Obligations.NopCompletesOk : Prop :=
  (∀ s : State, ∃ t, exec .nop s = .next t ∧ Completed s t .ok false CompFlags.none ∧ ResultsKept s t ∧
    Untouched s t ∧ t.irq = s.ie) ∧
  (∀ s : State, s.status.busy = false →
    (s.access (.regWrite 32 0x008#12 0#32)).pend = some 0x0#4 ∧ decodeOpc 0x0#4 = .nop ∧
    (s.access (.regWrite 32 0x008#12 0#32)).status.done = false ∧ (s.access (.regWrite 32 0x008#12 0#32)).irq = false) ∧
  (∀ p : Params, ∃ t, exec .nop ((State.resetWith p).access (.regWrite 32 0x008#12 0#32)) = .next t ∧
    t.readReg .status = 0x00000002#32)

/-- R103: a reserved opcode is accepted, completes with `ILLEGAL_CMD` (0x12) and writes nothing else; `CMD` reads it
back; the ignored bits of the write play no part. -/
def Obligations.ReservedOpcodeCompletesIllegal : Prop :=
  (∀ (s : State) (opc : BitVec 4), ∃ t, exec (.reserved opc) s = .next t ∧
    Completed s t .illegalCmd false CompFlags.none ∧ ResultsKept s t ∧ Untouched s t) ∧
  ResultCode.illegalCmd.code = 0x12#8 ∧
  (∀ (s : State) (w : Word), s.status.busy = false → 8 ≤ (w.extractLsb' 0 4).toNat →
    decodeWord w = .reserved (w.extractLsb' 0 4) ∧
    ∃ t, exec (decodeWord w) (s.access (.regWrite 32 0x008#12 w)) = .next t ∧
      t.readReg .cmd = (w.extractLsb' 0 4).setWidth 32)

/-- R97: CLEAR_TABLE sets `BLOCK_COUNT` to 0, completes with `OK`, and the window then reads 0 for every index; `CURSOR`
and the rest are unchanged. -/
def Obligations.ClearTableEmptiesTable : Prop :=
  ∀ s : State, ∃ t, exec .clearTable s = .next t ∧ Completed s t .ok false CompFlags.none ∧
    t.table = [] ∧ t.readReg .blockCount = 0#32 ∧ t.cursor = s.cursor ∧ t.resultIndex = s.resultIndex ∧
    t.csum = s.csum ∧ Untouched s t ∧
    ∀ j : Word, ∀ word : Entry → Word, State.tblWord { t with tblIndex := j } word = 0#32

/-- R98: the completeness check over the table, with the zero-block case, and `STATUS` as its worked example gives it. -/
def Obligations.CheckCompleteReportsEnds : Prop :=
  ∀ s : State, ∃ t, exec .checkComplete s = .next t ∧ ResultsKept s t ∧ Untouched s t ∧
    (s.table = [] → Completed s t .ok false ⟨false, true, true, true⟩) ∧
    (∀ e l : Entry, s.table[0]? = some e → s.table[s.table.length - 1]? = some l →
      Completed s t .ok false
        ⟨e.first && decide (l.blkNum = 0#8), !e.first, decide (l.blkNum ≠ 0#8), false⟩ ∧
      (e.first = true → l.blkNum = 0#8 → s.status.ovr = false → t.readReg .status = 0x00010002#32))

/-- R101: the check reads only the first entry's `FIRST` and the last entry's `BLKNUM`: two states that agree on those,
whatever else they hold, complete with the same flags. -/
def Obligations.CheckCompleteIgnoresTheRest : Prop :=
  ∀ (s s' t t' : State) (a b a' b' : Entry) (xs xs' : List Entry),
    s.table = a :: xs → s'.table = a' :: xs' → (a :: xs).getLast? = some b → (a' :: xs').getLast? = some b' →
    a.first = a'.first → b.blkNum = b'.blkNum →
    exec .checkComplete s = .next t → exec .checkComplete s' = .next t' → t.status.flags = t'.status.flags

/-! ## The checksum -/

/-- R76: the loop that subtracts 256 equals the sum mod 256, stays below 256, and is what the accumulator computes. -/
def Obligations.RolloverIsSumModulo256 : Prop :=
  (∀ bs : List Byte, rolloverLoop 0 bs = sumMod256 bs ∧ rolloverLoop 0 bs ≤ 255 ∧
    (rollover bs).toNat = rolloverLoop 0 bs) ∧ rollover [] = 0#8

/-- R77: the accumulator adds one byte after the other in 8 bits; the checksum is the same for any order of the bytes, detects every single-byte change, and does not detect two
changes that cancel mod 256, nor an exchange of two bytes. -/
def Obligations.RolloverDetectsSingleChanges : Prop :=
  (∀ (bs : List Byte) (b : Byte), rollover (bs ++ [b]) = rollover bs + b) ∧
  (∀ bs cs : List Byte, bs.Perm cs → rollover bs = rollover cs) ∧
  (∀ (xs ys : List Byte) (a b : Byte), rollover (xs ++ a :: ys) = rollover (xs ++ b :: ys) ↔ a = b) ∧
  (∀ (xs ys zs : List Byte) (a b c d : Byte), a + b = c + d →
    rollover (xs ++ a :: (ys ++ b :: zs)) = rollover (xs ++ c :: (ys ++ d :: zs))) ∧
  (∀ (xs ys zs : List Byte) (a b : Byte),
    rollover (xs ++ a :: (ys ++ b :: zs)) = rollover (xs ++ b :: (ys ++ a :: zs)))

/-- R78: CSUM puts the checksum of the range into `CSUM`; `CURSOR` is not checked; a range beyond the capture, computed
without wrap, is `RANGE_ERROR` and changes nothing but `STATUS`. -/
def Obligations.CsumSumsTheRange : Prop :=
  (∀ s : State, s.CsumInRange → s.cap.Written s.argAddr.toNat (s.argAddr.toNat + s.argLen.toNat) →
    ∃ t, exec .csum s = .next t ∧ Completed s t .ok false CompFlags.none ∧
      (t.readReg .csum).toNat = sumMod256 (s.cap.slice s.argAddr.toNat s.argLen.toNat) ∧
      t.cursor = s.cursor ∧ t.resultIndex = s.resultIndex ∧ t.table = s.table ∧ Untouched s t) ∧
  (∀ s : State, ¬ s.CsumInRange → ∃ t, exec .csum s = .next t ∧ Completed s t .rangeError false CompFlags.none ∧
    ResultsKept s t ∧ Untouched s t)

/-! ## The scans -/

/-- R70: PilotScan's closed form, with its three consequences. -/
def Obligations.PilotScanFindsLeastPilot : Prop :=
  ∀ (m : Memory) (c L : Nat), (m.Written c L → ∃ r, pilotScan m c L = .ok r) ∧
    ∀ r, pilotScan m c L = .ok r → LeastOrNone (PilotAt m c L) r ∧ (L - c < 256 → r = none) ∧
      ∀ p, r = some p → c + 256 ≤ p ∧ p ≤ L ∧ (∀ j, p - 256 ≤ j → j < p → m.byteAt j = 0x00#8) ∧
        (p - 256 = c ∨ m.byteAt (p - 257) ≠ 0x00#8)

/-- R71: MagicScan's closed form; nothing is found when fewer than 5 bytes remain. -/
def Obligations.MagicScanFindsLeastMagic : Prop :=
  ∀ (m : Memory) (c L : Nat), (m.Written c L → ∃ r, magicScan m c L = .ok r) ∧
    ∀ r, magicScan m c L = .ok r → LeastOrNone (MagicAt m c L) r ∧ (L - c < 5 → r = none)

/-- R74: FIND_PILOT puts the end of the first pilot run at or after `CURSOR` into `RESULT_INDEX` and sets `FOUND`, or 0
and clears it, and completes with `OK` either way; outside the range it is `RANGE_ERROR` and `RESULT_INDEX` stays. -/
def Obligations.FindPilotReportsFirstPilot : Prop :=
  (∀ s : State, s.InRange → s.cap.Written s.cursor.toNat s.bufLen.toNat →
    ∃ t r, exec .findPilot s = .next t ∧ LeastOrNone (PilotAt s.cap s.cursor.toNat s.bufLen.toNat) r ∧
      Completed s t .ok r.isSome CompFlags.none ∧ t.resultIndex.toNat = r.getD 0 ∧
      t.cursor = s.cursor ∧ t.csum = s.csum ∧ t.table = s.table ∧ Untouched s t) ∧
  (∀ s : State, ¬ s.InRange → ∃ t, exec .findPilot s = .next t ∧ Completed s t .rangeError false CompFlags.none ∧
    ResultsKept s t ∧ Untouched s t)

/-- R75: SEEK_HEADER, in the same way, for the first magic at or after `CURSOR`. -/
def Obligations.SeekHeaderReportsFirstMagic : Prop :=
  (∀ s : State, s.InRange → s.cap.Written s.cursor.toNat s.bufLen.toNat →
    ∃ t r, exec .seekHeader s = .next t ∧ LeastOrNone (MagicAt s.cap s.cursor.toNat s.bufLen.toNat) r ∧
      Completed s t .ok r.isSome CompFlags.none ∧ t.resultIndex.toNat = r.getD 0 ∧
      t.cursor = s.cursor ∧ t.csum = s.csum ∧ t.table = s.table ∧ Untouched s t) ∧
  (∀ s : State, ¬ s.InRange → ∃ t, exec .seekHeader s = .next t ∧ Completed s t .rangeError false CompFlags.none ∧
    ResultsKept s t ∧ Untouched s t)

/-! ## The block decoder -/

/-- R80: PilotScan selects the candidate if it finds a pilot anywhere in the remaining buffer, else MagicScan does, else
there are no more blocks. -/
def Obligations.DecodeSelectsPilotBeforeMagic : Prop :=
  ∀ (m : Memory) (c L : Nat), m.Written c L →
    (∀ p, Least (PilotAt m c L) p → decodeAt m c L = decodeFrame m L p true) ∧
    (∀ i, (∀ p, ¬ PilotAt m c L p) → Least (MagicAt m c L) i → decodeAt m c L = decodeFrame m L i false) ∧
    ((∀ p, ¬ PilotAt m c L p) → (∀ i, ¬ MagicAt m c L i) → decodeAt m c L = .ok (.fail .noMoreBlocks))

/-- R81 to R87 in the order R79 and R116 give: the first step that fails on the candidate decides, and a valid frame
(R61) decodes to the entry R79 lists and the index after its raw range. -/
def Obligations.FirstFailingStepDecides : Prop :=
  ∀ (m : Memory) (L s : Nat) (first : Bool), m.Written s L → L < 2 ^ 32 →
    let isMagic := m.slice s 5 = [0x00#8, 0xFF#8, 0xFF#8, 0xFF#8, 0xFF#8]
    (L - s < 10 → decodeFrame m L s first = .ok (.fail .incompleteHeader)) ∧
    (10 ≤ L - s → ¬ isMagic → decodeFrame m L s first = .ok (.fail .invalidHeader)) ∧
    (10 ≤ L - s → isMagic → ¬ m.HeaderOk s → decodeFrame m L s first = .ok (.fail .headerCsumMismatch)) ∧
    (10 ≤ L - s → isMagic → m.HeaderOk s → L - s < 10 + m.sizeAt s + 1 →
      decodeFrame m L s first = .ok (.fail .blockIncomplete)) ∧
    (10 + m.sizeAt s + 1 ≤ L - s → isMagic → m.HeaderOk s → ¬ m.DataOk s →
      decodeFrame m L s first = .ok (.fail .dataCsumMismatch)) ∧
    (m.ValidFrame L s →
      ∃ e, decodeFrame m L s first = .ok (.block e (s + m.rawLenAt L s)) ∧ m.IsEntryOf L s first e)

/-- R88: the bounds of a successful decode, and that a decode depends on no byte outside `[c, L)`. -/
def Obligations.DecodeStaysInsideBuffer : Prop :=
  (∀ (m : Memory) (c L next : Nat) (e : Entry), L < 2 ^ 32 → decodeAt m c L = .ok (.block e next) →
    12 ≤ e.rawLen.toNat ∧ e.rawLen.toNat ≤ 277 ∧ c ≤ e.start.toNat ∧ e.start.toNat < next ∧ next ≤ L ∧
    12 ≤ next - c ∧ next = e.start.toNat + e.rawLen.toNat) ∧
  (∀ (m m' : Memory) (c L : Nat), m.AgreeOn m' c L → decodeAt m c L = decodeAt m' c L)

/-- R89: a returned entry's data checksum is that of its data, and is the byte stored right after the data. -/
def Obligations.DecodedBlockIsSelfConsistent : Prop :=
  ∀ (m : Memory) (c L next : Nat) (e : Entry), L < 2 ^ 32 → decodeAt m c L = .ok (.block e next) →
    (rollover (m.slice (e.start.toNat + 10) e.dataSize.toNat)) = e.dcsum ∧
    e.dcsum = m.byteAt (e.start.toNat + 10 + e.dataSize.toNat) ∧ m.ValidFrame L e.start.toNat ∧
    m.IsEntryOf L e.start.toNat e.first e

/-- R90: what DECODE does with each answer of DecodeAt, and outside the range. On every failure `CURSOR`, `BLOCK_COUNT`
and the table are unchanged. -/
def Obligations.DecodeAppendsOrReports : Prop :=
  (∀ (s : State) (e : Entry) (next : Nat), s.InRange →
    decodeAt s.cap s.cursor.toNat s.bufLen.toNat = .ok (.block e next) →
    (s.table.length ≠ s.params.maxBlocks.toNat →
      ∃ t, exec .decode s = .next t ∧ Completed s t .ok false CompFlags.none ∧ t.table = s.table ++ [e] ∧
        t.cursor.toNat = next ∧ t.resultIndex = s.resultIndex ∧ t.csum = s.csum ∧ Untouched s t) ∧
    (s.table.length = s.params.maxBlocks.toNat →
      ∃ t, exec .decode s = .next t ∧ Completed s t .tableFull false CompFlags.none ∧ ResultsKept s t ∧
        Untouched s t)) ∧
  (∀ (s : State) (code : ResultCode), s.InRange →
    decodeAt s.cap s.cursor.toNat s.bufLen.toNat = .ok (.fail code) →
    ∃ t, exec .decode s = .next t ∧ Completed s t code false CompFlags.none ∧ ResultsKept s t ∧ Untouched s t) ∧
  (∀ s : State, ¬ s.InRange → ∃ t, exec .decode s = .next t ∧ Completed s t .rangeError false CompFlags.none ∧
    ResultsKept s t ∧ Untouched s t)

/-- End to end, in the capture's own terms (R61, R79, R90): with no pilot in the remaining buffer and a valid frame at the
first magic, DECODE appends that frame's entry, with `FIRST = 0`, and moves `CURSOR` behind its raw range. -/
def Obligations.DecodeTakesFirstFrame : Prop :=
  ∀ (s : State) (i : Nat), s.InRange → s.cap.Written s.cursor.toNat s.bufLen.toNat →
    s.table.length < s.params.maxBlocks.toNat →
    (∀ p, ¬ PilotAt s.cap s.cursor.toNat s.bufLen.toNat p) →
    Least (MagicAt s.cap s.cursor.toNat s.bufLen.toNat) i → s.cap.ValidFrame s.bufLen.toNat i →
    ∃ t e, exec .decode s = .next t ∧ Completed s t .ok false CompFlags.none ∧ t.table = s.table ++ [e] ∧
      s.cap.IsEntryOf s.bufLen.toNat i false e ∧ t.cursor.toNat = i + s.cap.rawLenAt s.bufLen.toNat i ∧
      t.resultIndex = s.resultIndex ∧ t.csum = s.csum ∧ Untouched s t

/-- R60, R132: where the first pilot of the remaining buffer is in a run of `k` zeros from `d` up to a magic, at `CURSOR`
or behind other bytes, exactly 256 zeros are decoded at the magic with `FIRST = 1` when the frame is valid; 255, or 257
or more, fail with `INVALID_HEADER` and change nothing but `STATUS` and `PEND`. -/
def Obligations.PilotMustBeExactly256 : Prop :=
  ∀ (s : State) (d k : Nat), s.InRange → s.cap.Written s.cursor.toNat s.bufLen.toNat →
    let c := s.cursor.toNat
    let L := s.bufLen.toNat
    c ≤ d → (d = c ∨ s.cap.byteAt (d - 1) ≠ 0x00#8) → (∀ p, p ≤ d → ¬ PilotAt s.cap c L p) →
    (∀ j, d ≤ j → j < d + k → s.cap.byteAt j = 0x00#8) →
    s.cap.slice (d + k) 5 = [0x00#8, 0xFF#8, 0xFF#8, 0xFF#8, 0xFF#8] → d + k + 5 ≤ L → d + 266 ≤ L →
    (k = 256 → s.cap.ValidFrame L (d + 256) → s.table.length < s.params.maxBlocks.toNat →
      ∃ t e, exec .decode s = .next t ∧ Completed s t .ok false CompFlags.none ∧ t.table = s.table ++ [e] ∧
        s.cap.IsEntryOf L (d + 256) true e ∧ t.cursor.toNat = d + 256 + s.cap.rawLenAt L (d + 256) ∧
        t.resultIndex = s.resultIndex ∧ t.csum = s.csum ∧ Untouched s t) ∧
    (k = 255 ∨ 257 ≤ k →
      ∃ t, exec .decode s = .next t ∧ Completed s t .invalidHeader false CompFlags.none ∧ ResultsKept s t ∧
        Untouched s t)

/-- R72, R131: a pilot anywhere in the remaining buffer is taken ahead of every earlier frame: the decode answers nothing
that starts before the end of its 256th zero. -/
def Obligations.LaterPilotSkipsEarlierFrames : Prop :=
  ∀ (m : Memory) (c L p next : Nat) (e : Entry), L < 2 ^ 32 → Least (PilotAt m c L) p →
    decodeAt m c L = .ok (.block e next) → e.start.toNat = p ∧ e.first = true

/-- R89, R90: a DECODE repeated after a failure, with no host write in between, fails again with the same code. -/
def Obligations.FailedDecodeRepeats : Prop :=
  ∀ s t : State, exec .decode s = .next t → t.status.result ≠ .ok →
    ∃ u, exec .decode (t.accept 0x4#4) = .next u ∧ u.status.result = t.status.result ∧ ResultsKept t u

/-! ## The scan driver -/

/-- R91, R92: a pass retains exactly the blocks of the successive decodes from `CURSOR`, leaves `CURSOR` behind the last
of them, and ends at the first failure, with that failure's code, or at a block the table has no room for; a range error
changes nothing but `STATUS` and `PEND`. That the blocks before a failure stay, against R112's words on failing commands,
is the model's reading (log 14). -/
def Obligations.ReadBlocksStopsAtFirstFailure : Prop :=
  (∀ s : State, s.InRange → s.cap.Written s.cursor.toNat s.bufLen.toNat →
    ∃ t code, exec .readBlocks s = .next t ∧ Completed s t code false CompFlags.none ∧
      DecodedFrom s.cap s.bufLen.toNat s.cursor.toNat t.table t.cursor.toNat ∧
      t.table.length ≤ s.params.maxBlocks.toNat ∧
      (decodeAt s.cap t.cursor.toNat s.bufLen.toNat = .ok (.fail code) ∨
        (code = .tableFull ∧ t.table.length = s.params.maxBlocks.toNat ∧
          ∃ e next, decodeAt s.cap t.cursor.toNat s.bufLen.toNat = .ok (.block e next))) ∧
      (∀ e ∈ t.table, s.cap.ValidFrame s.bufLen.toNat e.start.toNat ∧
        s.cap.IsEntryOf s.bufLen.toNat e.start.toNat e.first e) ∧
      t.resultIndex = s.resultIndex ∧ t.csum = s.csum ∧ Untouched s t) ∧
  (∀ s : State, ¬ s.InRange → ∃ t, exec .readBlocks s = .next t ∧ Completed s t .rangeError false CompFlags.none ∧
    ResultsKept s t ∧ Untouched s t)

/-- R95: when `RangeOK()` holds, READ_BLOCKS has the effect of CLEAR_TABLE followed by DECODE repeated until one
completes with a result other than `OK`, in both directions; when it does not, READ_BLOCKS leaves the table, whereas
CLEAR_TABLE clears it before the first DECODE reports `RANGE_ERROR`. -/
def Obligations.ReadBlocksIsClearThenDecodes : Prop :=
  (∀ s u : State, s.InRange → exec .clearTable s = .next u →
    (∀ t, exec .readBlocks s = .next t →
      ∃ v, DecodeChain u v ∧ v.status = t.status ∧ v.cursor = t.cursor ∧ v.table = t.table) ∧
    (∀ v, DecodeChain u v →
      ∃ t, exec .readBlocks s = .next t ∧ t.status = v.status ∧ t.cursor = v.cursor ∧ t.table = v.table)) ∧
  (∀ s : State, ¬ s.InRange → ∃ t u v, exec .readBlocks s = .next t ∧ t.table = s.table ∧
    exec .clearTable s = .next u ∧ u.table = [] ∧ exec .decode u = .next v ∧ v.status.result = .rangeError)

/-- R93: READ_BLOCKS never completes with `OK`, and every block it appends takes at least 12 bytes of the buffer, so a
pass from c appends at most floor((`BUF_LEN` − c) / 12) blocks. -/
def Obligations.ReadBlocksIsBounded : Prop :=
  ∀ s t : State, exec .readBlocks s = .next t → t.status.result ≠ .ok ∧
    (s.InRange → s.cursor.toNat + 12 * t.table.length ≤ t.cursor.toNat ∧ t.cursor.toNat ≤ s.bufLen.toNat ∧
      t.table.length ≤ (s.bufLen.toNat - s.cursor.toNat) / 12)

/-- R96: the raw ranges of one pass are disjoint and in increasing capture order. -/
def Obligations.ReadBlocksEntriesInOrder : Prop :=
  ∀ s t : State, s.InRange → exec .readBlocks s = .next t →
    (∀ k a b, t.table[k]? = some a → t.table[k + 1]? = some b →
      a.start.toNat + a.rawLen.toNat ≤ b.start.toNat) ∧
    (∀ e ∈ t.table, s.cursor.toNat ≤ e.start.toNat ∧ e.start.toNat + e.rawLen.toNat ≤ t.cursor.toNat)

/-- R8: with `MAX_BLOCKS ≥ floor(BUF_LEN / 12)` a pass never overflows the table. -/
def Obligations.LargeTableNeverOverflows : Prop :=
  ∀ s t : State, s.InRange → s.bufLen.toNat / 12 ≤ s.params.maxBlocks.toNat → exec .readBlocks s = .next t →
    t.status.result ≠ .tableFull

/-- R89's idempotence for the driver: READ_BLOCKS again from the same `CURSOR` over the same capture gives the same
`STATUS`, `CURSOR`, `BLOCK_COUNT` and entries. -/
def Obligations.ReadBlocksIsIdempotent : Prop :=
  ∀ s t : State, s.InRange → exec .readBlocks s = .next t →
    ∃ u, exec .readBlocks (State.accept { t with cursor := s.cursor } 0x5#4) = .next u ∧ u.status = t.status ∧
      u.cursor = t.cursor ∧ u.table = t.table

/-- The round trip of the source's testable properties (95_test_vectors.md, V-prop): a tape assembled from blocks, with or
without the pilot, and with no other run of 256 zeros, is read back: load address, block number, size and payload of
every block, `FIRST` only for the first and only with the pilot; fewer only when the table is full. -/
def Obligations.SyntheticTapeReadsBack : Prop :=
  ∀ (s : State) (pilot : Bool) (bs : List TapeBlock), bs ≠ [] → (∀ b ∈ bs, b.Wf) →
    s.cursor = 0#32 → s.bufLen.toNat = (tapeBytes pilot bs).length → s.bufLen.toNat ≤ s.params.capSize.toNat →
    s.cap.Holds (tapeBytes pilot bs) →
    (∀ p, ¬ PilotAt s.cap (if pilot then 257 else 0) s.bufLen.toNat p) →
    ∃ t, exec .readBlocks s = .next t ∧ t.table.length = min bs.length s.params.maxBlocks.toNat ∧
      t.status.result = (if bs.length ≤ s.params.maxBlocks.toNat then .noMoreBlocks else .tableFull) ∧
      ∀ j e, t.table[j]? = some e → ∃ b, bs[j]? = some b ∧
        e.load.toNat = b.loadLo.toNat + 256 * b.loadHi.toNat ∧ e.blkNum = b.blkNum ∧
        e.dataSize.toNat = b.data.length ∧ s.cap.slice (e.start.toNat + 10) e.dataSize.toNat = b.data ∧
        e.first = (pilot && decide (j = 0))

/-! ## Registers -/

/-- R124: the power-on reset state, for every instance. -/
def Obligations.ResetValues : Prop :=
  ∀ p : Params, let s := State.resetWith p
    s.readReg .id = 0x4B435331#32 ∧ s.readReg .cfgCapSize = p.capSize ∧ s.readReg .cfgMaxBlocks = p.maxBlocks ∧
    (∀ r ∈ [RegName.ctrl, .cmd, .status, .bufLen, .cursor, .argAddr, .argLen, .resultIndex, .csum, .blockCount,
      .tblIndex, .tblW0, .tblW1, .tblW2, .tblW3], s.readReg r = 0#32) ∧
    s.pend = none ∧ s.irq = false ∧ ∀ a, s.cap.read a = none

/-- R104: while idle a write to an RW register stores the value, writes to RO registers and reserved offsets are ignored,
`CTRL` takes `IE`, and a read returns the current value: at each offset of R19 the register of that offset, 0 at a
reserved one (R31). -/
def Obligations.IdleHostAccesses : Prop :=
  ∀ (s : State) (w : Word), s.status.busy = false →
    s.access (.regWrite 32 0x010#12 w) = { s with bufLen := w } ∧
    s.access (.regWrite 32 0x014#12 w) = { s with cursor := w } ∧
    s.access (.regWrite 32 0x018#12 w) = { s with argAddr := w } ∧
    s.access (.regWrite 32 0x01C#12 w) = { s with argLen := w } ∧
    s.access (.regWrite 32 0x02C#12 w) = { s with tblIndex := w } ∧
    s.access (.regWrite 32 0x008#12 w) = s.accept (w.extractLsb' 0 4) ∧
    s.access (.regWrite 32 0x00C#12 w) = { s with status := { s.status with
      done := s.status.done && !w.getLsbD 1, ovr := s.status.ovr && !w.getLsbD 3 } } ∧
    (w.getLsbD 1 = false → s.access (.regWrite 32 0x004#12 w) = { s with ie := w.getLsbD 0 }) ∧
    (w.getLsbD 1 = true → s.access (.regWrite 32 0x004#12 w) = s.softReset) ∧
    (∀ off ∈ [0x000#12, 0x020#12, 0x024#12, 0x028#12, 0x030#12, 0x034#12, 0x038#12, 0x03C#12, 0x040#12, 0x044#12],
      s.access (.regWrite 32 off w) = s) ∧
    (∀ off : BitVec 12, 0x048 ≤ off.toNat → s.access (.regWrite 32 off w) = s) ∧
    (∀ r : RegName, s.access (.regRead 32 r.offset) = s.hostGot (s.readReg r)) ∧
    (∀ x ∈ [(0x000#12, 0x4B435331#32), (0x004#12, if s.ie then 1#32 else 0#32), (0x008#12, s.cmd.setWidth 32),
        (0x00C#12, s.status.pack), (0x010#12, s.bufLen), (0x014#12, s.cursor), (0x018#12, s.argAddr),
        (0x01C#12, s.argLen), (0x020#12, s.resultIndex), (0x024#12, s.csum.setWidth 32),
        (0x028#12, BitVec.ofNat 32 s.table.length), (0x02C#12, s.tblIndex), (0x030#12, s.tblWord Entry.w0),
        (0x034#12, s.tblWord Entry.w1), (0x038#12, s.tblWord Entry.w2), (0x03C#12, s.tblWord Entry.w3),
        (0x040#12, s.params.capSize), (0x044#12, s.params.maxBlocks)],
      s.access (.regRead 32 x.1) = { s with host := { s.host with reads := x.2 :: s.host.reads } }) ∧
    (∀ off : BitVec 12, 0x048 ≤ off.toNat →
      s.access (.regRead 32 off) = { s with host := { s.host with reads := 0#32 :: s.host.reads } })

/-- R105: while busy the six register writes and every capture write are refused and set `OVR`; `CTRL` and W1C writes
still act; RO registers and reserved offsets are ignored without `OVR`. A capture write at an index outside the memory is
counted among "every capture-memory write" by the model's choice (log 9). -/
def Obligations.BusyHostWrites : Prop :=
  ∀ (s : State) (w : Word), s.status.busy = true →
    (∀ off ∈ [0x008#12, 0x010#12, 0x014#12, 0x018#12, 0x01C#12, 0x02C#12],
      s.access (.regWrite 32 off w) = { s with status := { s.status with ovr := true } }) ∧
    (∀ (i : Nat) (b : Byte), s.access (.capWrite i b) = { s with status := { s.status with ovr := true } }) ∧
    (w.getLsbD 1 = false → s.access (.regWrite 32 0x004#12 w) = { s with ie := w.getLsbD 0 }) ∧
    (w.getLsbD 1 = true → s.access (.regWrite 32 0x004#12 w) = s.softReset) ∧
    s.access (.regWrite 32 0x00C#12 w) = { s with status := { s.status with
      done := s.status.done && !w.getLsbD 1, ovr := s.status.ovr && !w.getLsbD 3 } } ∧
    (∀ off ∈ [0x000#12, 0x020#12, 0x024#12, 0x028#12, 0x030#12, 0x034#12, 0x038#12, 0x03C#12, 0x040#12, 0x044#12],
      s.access (.regWrite 32 off w) = s) ∧
    (∀ off : BitVec 12, 0x048 ≤ off.toNat → s.access (.regWrite 32 off w) = s)

/-- R106: while busy, the registers the rule lists read exactly, and so do `BUSY`, `DONE`, `OVR` and the reserved bits of
`STATUS`. (What the others return is a free value: nothing is claimed of it.) -/
def Obligations.BusyReadsThatAreExact : Prop :=
  ∀ s : State, s.status.busy = true → s.status.done = false →
    (∀ r ∈ [RegName.id, .ctrl, .cmd, .bufLen, .argAddr, .argLen, .tblIndex, .cfgCapSize, .cfgMaxBlocks],
      s.regReadValue 32 r.offset = s.readReg r) ∧
    (∀ x ∈ [(0x000#12, 0x4B435331#32), (0x004#12, if s.ie then 1#32 else 0#32), (0x008#12, s.cmd.setWidth 32),
        (0x010#12, s.bufLen), (0x018#12, s.argAddr), (0x01C#12, s.argLen), (0x02C#12, s.tblIndex),
        (0x040#12, s.params.capSize), (0x044#12, s.params.maxBlocks)],
      s.regReadValue 32 x.1 = x.2) ∧
    (s.regReadValue 32 0x00C#12).getLsbD 0 = true ∧ (s.regReadValue 32 0x00C#12).getLsbD 1 = false ∧
    (s.regReadValue 32 0x00C#12).getLsbD 3 = s.status.ovr ∧
    (∀ b ∈ [4, 5, 6, 7, 20, 21, 22, 23, 24, 25, 26, 27, 28, 29, 30, 31],
      (s.regReadValue 32 0x00C#12).getLsbD b = false) ∧
    (∀ off : BitVec 12, 0x048 ≤ off.toNat → s.regReadValue 32 off = 0#32)

/-- R42: a register access of another width or at a misaligned offset writes nothing, whatever the register, and a read
returns 0. R31: reserved offsets read 0 and ignore writes. -/
def Obligations.OddRegisterAccessesDoNothing : Prop :=
  ∀ (s : State) (bits : Nat) (off : BitVec 12) (w : Word),
    ((bits ≠ 32 ∨ off.toNat % 4 ≠ 0) → s.access (.regWrite bits off w) = s ∧ s.regReadValue bits off = 0#32) ∧
    (0x048 ≤ off.toNat → s.access (.regWrite bits off w) = s ∧ s.regReadValue bits off = 0#32)

/-- R44: no read has a side effect on the block: a register or capture read changes only what the host has read and the
model's draw counter. -/
def Obligations.ReadsHaveNoSideEffect : Prop :=
  ∀ (s : State) (a : HostOp), (∃ bits off, a = .regRead bits off) ∨ (∃ i, a = .capRead i) →
    ∃ v d, s.access a = { s with host := { s.host with reads := v :: s.host.reads }, draws := d }

/-- R108: a `CTRL` write with `SRST` set, at any time and whatever its `IE` bit, abandons a pending command, gives every
register its reset value, empties `PEND`, drops `IRQ`, and keeps every capture byte; `SRST` reads 0. -/
def Obligations.SoftResetKeepsOnlyTheCapture : Prop :=
  ∀ (s : State) (w : Word), w.getLsbD 1 = true → let t := s.access (.regWrite 32 0x004#12 w)
    (∀ r : RegName, t.readReg r = (State.resetWith s.params).readReg r) ∧ t.pend = none ∧ t.irq = false ∧
    t.ie = false ∧ t.table = [] ∧ t.params = s.params ∧ (∀ a, t.cap.read a = s.cap.read a) ∧
    (s.readReg .ctrl).getLsbD 1 = false

/-- R34, R115: `IRQ` is `DONE ∧ IE` and 0 after reset: setting `IE` while `DONE = 1` raises it at once, clearing `IE` lowers it and leaves
`DONE`, and a W1C write of `DONE`, a new command or a soft reset clears it. -/
def Obligations.IrqFollowsDoneAndEnable : Prop :=
  ∀ s : State, s.irq = (s.status.done && s.ie) ∧
    (s.status.done = true → (s.access (.regWrite 32 0x004#12 0x1#32)).irq = true) ∧
    (s.access (.regWrite 32 0x004#12 0x0#32)).irq = false ∧
    (s.access (.regWrite 32 0x004#12 0x0#32)).status.done = s.status.done ∧
    (s.access (.regWrite 32 0x00C#12 0x2#32)).irq = false ∧
    (s.status.busy = false → ∀ w, (s.access (.regWrite 32 0x008#12 w)).irq = false) ∧
    (s.access (.regWrite 32 0x004#12 0x2#32)).irq = false ∧ (∀ p : Params, (State.resetWith p).irq = false)

/-- R29, R66: the window shows the selected entry's packed words, each field at its place, and 0 beyond the table. -/
def Obligations.TableWindowShowsPackedEntry : Prop :=
  (∀ (s : State) (e : Entry), s.table[s.tblIndex.toNat]? = some e →
    s.readReg .tblW0 = e.start ∧
    (s.readReg .tblW1).toNat = e.sizeByte.toNat * 2 ^ 24 + e.blkNum.toNat * 2 ^ 16 + e.load.toNat ∧
    (s.readReg .tblW2).toNat = e.first.toNat * 2 ^ 31 + e.rawLen.toNat * 2 ^ 16 + e.dataSize.toNat ∧
    (s.readReg .tblW3).toNat = e.dcsum.toNat * 2 ^ 8 + e.hcsum.toNat) ∧
  (∀ s : State, s.table.length ≤ s.tblIndex.toNat →
    ∀ r ∈ [RegName.tblW0, .tblW1, .tblW2, .tblW3], s.readReg r = 0#32)

/-- R23, R65: the places of the `STATUS` fields, the reserved bits, and the ten result codes. -/
def Obligations.StatusFieldPlaces : Prop :=
  (∀ st : Status, st.pack.getLsbD 0 = st.busy ∧ st.pack.getLsbD 1 = st.done ∧ st.pack.getLsbD 2 = st.found ∧
    st.pack.getLsbD 3 = st.ovr ∧ st.pack.extractLsb' 4 4 = 0#4 ∧ st.pack.extractLsb' 8 8 = st.result.code ∧
    st.pack.getLsbD 16 = st.flags.complete ∧ st.pack.getLsbD 17 = st.flags.missingBegin ∧
    st.pack.getLsbD 18 = st.flags.missingEnd ∧ st.pack.getLsbD 19 = st.flags.noData ∧
    st.pack.extractLsb' 20 12 = 0#12) ∧
  ResultCode.ok.code = 0x00#8 ∧ ResultCode.noMoreBlocks.code = 0x01#8 ∧ ResultCode.incompleteHeader.code = 0x02#8 ∧
  ResultCode.invalidHeader.code = 0x03#8 ∧ ResultCode.headerCsumMismatch.code = 0x04#8 ∧
  ResultCode.blockIncomplete.code = 0x05#8 ∧ ResultCode.dataCsumMismatch.code = 0x06#8 ∧
  ResultCode.rangeError.code = 0x10#8 ∧ ResultCode.tableFull.code = 0x11#8 ∧ ResultCode.illegalCmd.code = 0x12#8

/-! ## The capture memory -/

/-- R37, R47: an idle write inside the memory stores the byte and changes no other byte and nothing but the capture;
outside it is ignored and a read returns 0; a busy write is refused; a read inside returns the stored byte. That a busy
write outside the memory is refused with `OVR` too is the model's reading of R105 against R37 (log 9). -/
def Obligations.CaptureReadsBackWhatWasWritten : Prop :=
  ∀ (s : State) (i : Nat) (b : Byte),
    (s.status.busy = false → i < s.params.capSize.toNat →
      (s.access (.capWrite i b)).capReadValue i = b ∧
      s.access (.capWrite i b) = { s with cap := (s.access (.capWrite i b)).cap } ∧
      (∀ j, j ≠ i → (s.access (.capWrite i b)).cap.read j = s.cap.read j) ∧
      (s.cap.wf → (s.access (.capWrite i b)).cap.wf)) ∧
    (s.params.capSize.toNat ≤ i → s.capReadValue i = 0#8 ∧ (s.status.busy = false → s.access (.capWrite i b) = s)) ∧
    (s.status.busy = true → s.access (.capWrite i b) = { s with status := { s.status with ovr := true } }) ∧
    (∀ v, i < s.params.capSize.toNat → s.cap.read i = some v →
      s.access (.capRead i) = s.hostGot (v.setWidth 32))

/-- R105, R51: while a command is pending no host access changes its operands, the table or the capture: each leaves them
and the pending opcode as they are, or is the soft reset that abandons the command. -/
def Obligations.PendingCommandSeesFixedOperands : Prop :=
  ∀ (s : State) (a : HostOp), s.status.busy = true →
    s.access a = s.softReset ∨
    ((s.access a).pend = s.pend ∧ (s.access a).status.busy = true ∧ (s.access a).cmd = s.cmd ∧
      (s.access a).bufLen = s.bufLen ∧ (s.access a).cursor = s.cursor ∧ (s.access a).argAddr = s.argAddr ∧
      (s.access a).argLen = s.argLen ∧ (s.access a).table = s.table ∧ (s.access a).tblIndex = s.tblIndex ∧
      ∀ j, (s.access a).cap.read j = s.cap.read j)

/-- R38: a command's result depends on no capture byte at or above `BUF_LEN`: on two captures that agree below it, the
command completes alike, or faults alike. -/
def Obligations.BytesBeyondBufferDoNotMatter : Prop :=
  ∀ (i : Instr) (s : State) (m : Memory), s.cap.AgreeOn m 0 s.bufLen.toNat →
    (∀ t, exec i s = .next t → exec i { s with cap := m } = .next { t with cap := m }) ∧
    (∀ f, exec i s = .fault f → exec i { s with cap := m } = .fault f)

/-! ## The host program -/

/-- R68: `WAIT` with no command pending and `DONE = 0` never ends: after any number of steps the host is at the same
line. -/
def Obligations.WaitWithoutCommandNeverEnds : Prop :=
  ∀ (s : State) (k : Nat), s.hostLine = some .wait → s.pend = none → s.status.busy = false → s.status.done = false →
    ∃ t, Host.Core.run core k s = .next t ∧ t.host.pos = s.host.pos ∧ t.status = s.status

/-- R68: `WAIT` after a completion ends at once, and `BROK` then branches exactly when `RESULT` is 0x00. -/
def Obligations.WaitAndBranchAfterCompletion : Prop :=
  ∀ s : State, s.pend = none → s.status.busy = false →
    (s.hostLine = some .wait → s.status.done = true →
      ∃ t, step s = .next t ∧ t.host.pos = s.host.pos + 1 ∧ t.host.reads = s.readReg .status :: s.host.reads) ∧
    (∀ target, s.hostLine = some (.brok target) →
      ∃ t, step s = .next t ∧ t.host.reads = s.readReg .status :: s.host.reads ∧
        t.host.pos = (if s.status.result = .ok then target else s.host.pos + 1))

/-! ## The address map and the host's output -/

/-- R45 (D28): where the two windows do not overlap, a host address inside one reaches exactly that space: a register
offset by an access of any width, a capture byte by a byte access. What an address in neither window does is the model's
choice (log 2). -/
def Obligations.HostAddressReachesItsSpace : Prop :=
  ∀ p : Params, p.regBase + 4096 ≤ p.capBase ∨ p.capBase + p.capSize.toNat ≤ p.regBase →
    (∀ (bits : Nat) (off : BitVec 12) (w : Word),
      p.busWrite bits (p.regAddress off) w = some (.regWrite bits off w) ∧
      p.busRead bits (p.regAddress off) = some (.regRead bits off)) ∧
    (∀ (i : Nat) (w : Word), i < p.capSize.toNat →
      p.busWrite 8 (p.capAddress i) w = some (.capWrite i (w.extractLsb' 0 8)) ∧
      p.busRead 8 (p.capAddress i) = some (.capRead i))

/-- R13, R14: over a capture that holds every retained raw range, the host's file is fresh, 256 zero bytes and then the raw
ranges in table order, exactly when the first retained block has `FIRST`; otherwise the raw ranges are appended. That
file is written when `COMPLETE = 1` or a target was asked for (D27), and nothing otherwise: so right after CHECK_COMPLETE
when the first block has `FIRST` and the last has block number 0, or a target was asked for, and after any other command
only when asked. Giving the host's output as functions beside the machine (log 20), which read the state's bit also
while a command is pending (log 23), is the model's choice. -/
def Obligations.HostFileFollowsFirstBlock : Prop :=
  (∀ (s : State) (e : Entry) (es : List Entry), s.table = e :: es →
    (∀ x ∈ s.table, x.start.toNat + x.rawLen.toNat ≤ s.params.capSize.toNat ∧
      s.cap.Written x.start.toNat (x.start.toNat + x.rawLen.toNat)) →
    s.outputFile = (if e.first
      then .fresh (List.replicate 256 0x00#8 ++ s.table.flatMap (fun x => s.cap.slice x.start.toNat x.rawLen.toNat))
      else .append (s.table.flatMap (fun x => s.cap.slice x.start.toNat x.rawLen.toNat)))) ∧
  (∀ (s : State) (asked : Bool),
    s.hostWrites asked = if s.status.pack.getLsbD 16 || asked then some s.outputFile else none) ∧
  (∀ (s t : State) (e l : Entry) (es : List Entry) (asked : Bool), s.table = e :: es → (e :: es).getLast? = some l →
    exec .checkComplete s = .next t →
    t.hostWrites asked = if (e.first && decide (l.blkNum = 0#8)) || asked then some s.outputFile else none) ∧
  (∀ (i : Instr) (s t : State) (asked : Bool), i ≠ .checkComplete → exec i s = .next t →
    t.hostWrites asked = if asked then some t.outputFile else none)

/-! ## Invariants -/

/-- Every step keeps the invariant (R7, R28, R32, R33, R37, R88, and the model's own log 4). -/
def Obligations.EveryStepKeepsTheInvariant : Prop :=
  ∀ s t : State, s.Inv → step s = .next t → t.Inv

/-- The power-on reset state of every instance meets the invariant. Its last clause there is the model's choice of 0 for
`delay` at reset (log 4), and `State.reset` is the instance with log 1's sizes, any within R7's bounds. -/
def Obligations.ResetMeetsTheInvariant : Prop :=
  (∀ p : Params, p.wf → (State.resetWith p).Inv) ∧ State.reset.Inv

/-- R33: `BUSY = 1 ⇔ PEND ≠ nothing` always holds: at reset, and after every step from a state where it does. -/
def Obligations.BusyExactlyWhenPending : Prop :=
  (∀ p : Params, (State.resetWith p).status.busy = (State.resetWith p).pend.isSome) ∧
  ∀ s t : State, s.status.busy = s.pend.isSome → step s = .next t → t.status.busy = t.pend.isSome

/-- R20, R30: `CFG_CAP_SIZE`, `CFG_MAX_BLOCKS` and `ID` are constant: they read the parameters and 0x4B435331 in every
state, no step changes that, and writes to them are ignored, idle or busy. -/
def Obligations.ConstantRegistersNeverChange : Prop :=
  (∀ s t : State, step s = .next t →
    t.readReg .cfgCapSize = s.params.capSize ∧ t.readReg .cfgMaxBlocks = s.params.maxBlocks ∧
    t.readReg .id = 0x4B435331#32 ∧ t.params = s.params) ∧
  (∀ (s : State) (w : Word), s.readReg .id = 0x4B435331#32 ∧ s.readReg .cfgCapSize = s.params.capSize ∧
    s.readReg .cfgMaxBlocks = s.params.maxBlocks ∧
    ∀ off ∈ [0x000#12, 0x040#12, 0x044#12], s.access (.regWrite 32 off w) = s)
end

