-- ==== Sys2Proof/Laws/State.lean ====
section
/-! SUPPORT. Sys2Proof/Laws/State.lean: one lemma for each field of State under each named update, true by rfl, so that no
proof unfolds an update. -/

namespace Sys2Proof.Machine

open Sys2Proof

/-! ## accept -/

@[simp] theorem State.accept_params (s : State) (opc : BitVec 4) : (s.accept opc).params = s.params := rfl
@[simp] theorem State.accept_ie (s : State) (opc : BitVec 4) : (s.accept opc).ie = s.ie := rfl
@[simp] theorem State.accept_cmd (s : State) (opc : BitVec 4) : (s.accept opc).cmd = opc := rfl
@[simp] theorem State.accept_status (s : State) (opc : BitVec 4) : (s.accept opc).status = { s.status with busy := true, done := false } := rfl
@[simp] theorem State.accept_bufLen (s : State) (opc : BitVec 4) : (s.accept opc).bufLen = s.bufLen := rfl
@[simp] theorem State.accept_cursor (s : State) (opc : BitVec 4) : (s.accept opc).cursor = s.cursor := rfl
@[simp] theorem State.accept_argAddr (s : State) (opc : BitVec 4) : (s.accept opc).argAddr = s.argAddr := rfl
@[simp] theorem State.accept_argLen (s : State) (opc : BitVec 4) : (s.accept opc).argLen = s.argLen := rfl
@[simp] theorem State.accept_resultIndex (s : State) (opc : BitVec 4) : (s.accept opc).resultIndex = s.resultIndex := rfl
@[simp] theorem State.accept_csum (s : State) (opc : BitVec 4) : (s.accept opc).csum = s.csum := rfl
@[simp] theorem State.accept_tblIndex (s : State) (opc : BitVec 4) : (s.accept opc).tblIndex = s.tblIndex := rfl
@[simp] theorem State.accept_table (s : State) (opc : BitVec 4) : (s.accept opc).table = s.table := rfl
@[simp] theorem State.accept_pend (s : State) (opc : BitVec 4) : (s.accept opc).pend = some opc := rfl
@[simp] theorem State.accept_cap (s : State) (opc : BitVec 4) : (s.accept opc).cap = s.cap := rfl
@[simp] theorem State.accept_host (s : State) (opc : BitVec 4) : (s.accept opc).host = s.host := rfl
@[simp] theorem State.accept_delay (s : State) (opc : BitVec 4) : (s.accept opc).delay = Config.completionDelay s.draws := rfl
@[simp] theorem State.accept_draws (s : State) (opc : BitVec 4) : (s.accept opc).draws = s.draws + 1 := rfl

/-! ## complete -/

@[simp] theorem State.complete_params (s : State) (c : ResultCode) (f : Bool) (fl : CompFlags) : (s.complete c f fl).params = s.params := rfl
@[simp] theorem State.complete_ie (s : State) (c : ResultCode) (f : Bool) (fl : CompFlags) : (s.complete c f fl).ie = s.ie := rfl
@[simp] theorem State.complete_cmd (s : State) (c : ResultCode) (f : Bool) (fl : CompFlags) : (s.complete c f fl).cmd = s.cmd := rfl
@[simp] theorem State.complete_status (s : State) (c : ResultCode) (f : Bool) (fl : CompFlags) : (s.complete c f fl).status = ⟨false, true, f, s.status.ovr, c, fl⟩ := rfl
@[simp] theorem State.complete_bufLen (s : State) (c : ResultCode) (f : Bool) (fl : CompFlags) : (s.complete c f fl).bufLen = s.bufLen := rfl
@[simp] theorem State.complete_cursor (s : State) (c : ResultCode) (f : Bool) (fl : CompFlags) : (s.complete c f fl).cursor = s.cursor := rfl
@[simp] theorem State.complete_argAddr (s : State) (c : ResultCode) (f : Bool) (fl : CompFlags) : (s.complete c f fl).argAddr = s.argAddr := rfl
@[simp] theorem State.complete_argLen (s : State) (c : ResultCode) (f : Bool) (fl : CompFlags) : (s.complete c f fl).argLen = s.argLen := rfl
@[simp] theorem State.complete_resultIndex (s : State) (c : ResultCode) (f : Bool) (fl : CompFlags) : (s.complete c f fl).resultIndex = s.resultIndex := rfl
@[simp] theorem State.complete_csum (s : State) (c : ResultCode) (f : Bool) (fl : CompFlags) : (s.complete c f fl).csum = s.csum := rfl
@[simp] theorem State.complete_tblIndex (s : State) (c : ResultCode) (f : Bool) (fl : CompFlags) : (s.complete c f fl).tblIndex = s.tblIndex := rfl
@[simp] theorem State.complete_table (s : State) (c : ResultCode) (f : Bool) (fl : CompFlags) : (s.complete c f fl).table = s.table := rfl
@[simp] theorem State.complete_pend (s : State) (c : ResultCode) (f : Bool) (fl : CompFlags) : (s.complete c f fl).pend = none := rfl
@[simp] theorem State.complete_cap (s : State) (c : ResultCode) (f : Bool) (fl : CompFlags) : (s.complete c f fl).cap = s.cap := rfl
@[simp] theorem State.complete_host (s : State) (c : ResultCode) (f : Bool) (fl : CompFlags) : (s.complete c f fl).host = s.host := rfl
@[simp] theorem State.complete_delay (s : State) (c : ResultCode) (f : Bool) (fl : CompFlags) : (s.complete c f fl).delay = 0 := rfl
@[simp] theorem State.complete_draws (s : State) (c : ResultCode) (f : Bool) (fl : CompFlags) : (s.complete c f fl).draws = s.draws := rfl

/-! ## finish -/

@[simp] theorem State.finish_params (s : State) (c : ResultCode) : (s.finish c).params = s.params := rfl
@[simp] theorem State.finish_ie (s : State) (c : ResultCode) : (s.finish c).ie = s.ie := rfl
@[simp] theorem State.finish_cmd (s : State) (c : ResultCode) : (s.finish c).cmd = s.cmd := rfl
@[simp] theorem State.finish_status (s : State) (c : ResultCode) : (s.finish c).status = ⟨false, true, false, s.status.ovr, c, CompFlags.none⟩ := rfl
@[simp] theorem State.finish_bufLen (s : State) (c : ResultCode) : (s.finish c).bufLen = s.bufLen := rfl
@[simp] theorem State.finish_cursor (s : State) (c : ResultCode) : (s.finish c).cursor = s.cursor := rfl
@[simp] theorem State.finish_argAddr (s : State) (c : ResultCode) : (s.finish c).argAddr = s.argAddr := rfl
@[simp] theorem State.finish_argLen (s : State) (c : ResultCode) : (s.finish c).argLen = s.argLen := rfl
@[simp] theorem State.finish_resultIndex (s : State) (c : ResultCode) : (s.finish c).resultIndex = s.resultIndex := rfl
@[simp] theorem State.finish_csum (s : State) (c : ResultCode) : (s.finish c).csum = s.csum := rfl
@[simp] theorem State.finish_tblIndex (s : State) (c : ResultCode) : (s.finish c).tblIndex = s.tblIndex := rfl
@[simp] theorem State.finish_table (s : State) (c : ResultCode) : (s.finish c).table = s.table := rfl
@[simp] theorem State.finish_pend (s : State) (c : ResultCode) : (s.finish c).pend = none := rfl
@[simp] theorem State.finish_cap (s : State) (c : ResultCode) : (s.finish c).cap = s.cap := rfl
@[simp] theorem State.finish_host (s : State) (c : ResultCode) : (s.finish c).host = s.host := rfl
@[simp] theorem State.finish_delay (s : State) (c : ResultCode) : (s.finish c).delay = 0 := rfl
@[simp] theorem State.finish_draws (s : State) (c : ResultCode) : (s.finish c).draws = s.draws := rfl

/-! ## raise -/

@[simp] theorem State.raise_params (s : State) (c : ResultCode) : (s.raise c).params = s.params := rfl
@[simp] theorem State.raise_ie (s : State) (c : ResultCode) : (s.raise c).ie = s.ie := rfl
@[simp] theorem State.raise_cmd (s : State) (c : ResultCode) : (s.raise c).cmd = s.cmd := rfl
@[simp] theorem State.raise_status (s : State) (c : ResultCode) : (s.raise c).status = ⟨false, true, false, s.status.ovr, c, CompFlags.none⟩ := rfl
@[simp] theorem State.raise_bufLen (s : State) (c : ResultCode) : (s.raise c).bufLen = s.bufLen := rfl
@[simp] theorem State.raise_cursor (s : State) (c : ResultCode) : (s.raise c).cursor = s.cursor := rfl
@[simp] theorem State.raise_argAddr (s : State) (c : ResultCode) : (s.raise c).argAddr = s.argAddr := rfl
@[simp] theorem State.raise_argLen (s : State) (c : ResultCode) : (s.raise c).argLen = s.argLen := rfl
@[simp] theorem State.raise_resultIndex (s : State) (c : ResultCode) : (s.raise c).resultIndex = s.resultIndex := rfl
@[simp] theorem State.raise_csum (s : State) (c : ResultCode) : (s.raise c).csum = s.csum := rfl
@[simp] theorem State.raise_tblIndex (s : State) (c : ResultCode) : (s.raise c).tblIndex = s.tblIndex := rfl
@[simp] theorem State.raise_table (s : State) (c : ResultCode) : (s.raise c).table = s.table := rfl
@[simp] theorem State.raise_pend (s : State) (c : ResultCode) : (s.raise c).pend = none := rfl
@[simp] theorem State.raise_cap (s : State) (c : ResultCode) : (s.raise c).cap = s.cap := rfl
@[simp] theorem State.raise_host (s : State) (c : ResultCode) : (s.raise c).host = s.host := rfl
@[simp] theorem State.raise_delay (s : State) (c : ResultCode) : (s.raise c).delay = 0 := rfl
@[simp] theorem State.raise_draws (s : State) (c : ResultCode) : (s.raise c).draws = s.draws := rfl

/-! ## scanDone -/

@[simp] theorem State.scanDone_params (s : State) (r : Option Nat) : (s.scanDone r).params = s.params := rfl
@[simp] theorem State.scanDone_ie (s : State) (r : Option Nat) : (s.scanDone r).ie = s.ie := rfl
@[simp] theorem State.scanDone_cmd (s : State) (r : Option Nat) : (s.scanDone r).cmd = s.cmd := rfl
@[simp] theorem State.scanDone_status (s : State) (r : Option Nat) : (s.scanDone r).status = ⟨false, true, r.isSome, s.status.ovr, .ok, CompFlags.none⟩ := rfl
@[simp] theorem State.scanDone_bufLen (s : State) (r : Option Nat) : (s.scanDone r).bufLen = s.bufLen := rfl
@[simp] theorem State.scanDone_cursor (s : State) (r : Option Nat) : (s.scanDone r).cursor = s.cursor := rfl
@[simp] theorem State.scanDone_argAddr (s : State) (r : Option Nat) : (s.scanDone r).argAddr = s.argAddr := rfl
@[simp] theorem State.scanDone_argLen (s : State) (r : Option Nat) : (s.scanDone r).argLen = s.argLen := rfl
@[simp] theorem State.scanDone_resultIndex (s : State) (r : Option Nat) : (s.scanDone r).resultIndex = indexOrZero r := rfl
@[simp] theorem State.scanDone_csum (s : State) (r : Option Nat) : (s.scanDone r).csum = s.csum := rfl
@[simp] theorem State.scanDone_tblIndex (s : State) (r : Option Nat) : (s.scanDone r).tblIndex = s.tblIndex := rfl
@[simp] theorem State.scanDone_table (s : State) (r : Option Nat) : (s.scanDone r).table = s.table := rfl
@[simp] theorem State.scanDone_pend (s : State) (r : Option Nat) : (s.scanDone r).pend = none := rfl
@[simp] theorem State.scanDone_cap (s : State) (r : Option Nat) : (s.scanDone r).cap = s.cap := rfl
@[simp] theorem State.scanDone_host (s : State) (r : Option Nat) : (s.scanDone r).host = s.host := rfl
@[simp] theorem State.scanDone_delay (s : State) (r : Option Nat) : (s.scanDone r).delay = 0 := rfl
@[simp] theorem State.scanDone_draws (s : State) (r : Option Nat) : (s.scanDone r).draws = s.draws := rfl

/-! ## refuseWrite -/

@[simp] theorem State.refuseWrite_params (s : State) : (s.refuseWrite).params = s.params := rfl
@[simp] theorem State.refuseWrite_ie (s : State) : (s.refuseWrite).ie = s.ie := rfl
@[simp] theorem State.refuseWrite_cmd (s : State) : (s.refuseWrite).cmd = s.cmd := rfl
@[simp] theorem State.refuseWrite_status (s : State) : (s.refuseWrite).status = { s.status with ovr := true } := rfl
@[simp] theorem State.refuseWrite_bufLen (s : State) : (s.refuseWrite).bufLen = s.bufLen := rfl
@[simp] theorem State.refuseWrite_cursor (s : State) : (s.refuseWrite).cursor = s.cursor := rfl
@[simp] theorem State.refuseWrite_argAddr (s : State) : (s.refuseWrite).argAddr = s.argAddr := rfl
@[simp] theorem State.refuseWrite_argLen (s : State) : (s.refuseWrite).argLen = s.argLen := rfl
@[simp] theorem State.refuseWrite_resultIndex (s : State) : (s.refuseWrite).resultIndex = s.resultIndex := rfl
@[simp] theorem State.refuseWrite_csum (s : State) : (s.refuseWrite).csum = s.csum := rfl
@[simp] theorem State.refuseWrite_tblIndex (s : State) : (s.refuseWrite).tblIndex = s.tblIndex := rfl
@[simp] theorem State.refuseWrite_table (s : State) : (s.refuseWrite).table = s.table := rfl
@[simp] theorem State.refuseWrite_pend (s : State) : (s.refuseWrite).pend = s.pend := rfl
@[simp] theorem State.refuseWrite_cap (s : State) : (s.refuseWrite).cap = s.cap := rfl
@[simp] theorem State.refuseWrite_host (s : State) : (s.refuseWrite).host = s.host := rfl
@[simp] theorem State.refuseWrite_delay (s : State) : (s.refuseWrite).delay = s.delay := rfl
@[simp] theorem State.refuseWrite_draws (s : State) : (s.refuseWrite).draws = s.draws := rfl

/-! ## writeStatus -/

@[simp] theorem State.writeStatus_params (s : State) (w : Word) : (s.writeStatus w).params = s.params := rfl
@[simp] theorem State.writeStatus_ie (s : State) (w : Word) : (s.writeStatus w).ie = s.ie := rfl
@[simp] theorem State.writeStatus_cmd (s : State) (w : Word) : (s.writeStatus w).cmd = s.cmd := rfl
@[simp] theorem State.writeStatus_status (s : State) (w : Word) : (s.writeStatus w).status = s.status.w1c w := rfl
@[simp] theorem State.writeStatus_bufLen (s : State) (w : Word) : (s.writeStatus w).bufLen = s.bufLen := rfl
@[simp] theorem State.writeStatus_cursor (s : State) (w : Word) : (s.writeStatus w).cursor = s.cursor := rfl
@[simp] theorem State.writeStatus_argAddr (s : State) (w : Word) : (s.writeStatus w).argAddr = s.argAddr := rfl
@[simp] theorem State.writeStatus_argLen (s : State) (w : Word) : (s.writeStatus w).argLen = s.argLen := rfl
@[simp] theorem State.writeStatus_resultIndex (s : State) (w : Word) : (s.writeStatus w).resultIndex = s.resultIndex := rfl
@[simp] theorem State.writeStatus_csum (s : State) (w : Word) : (s.writeStatus w).csum = s.csum := rfl
@[simp] theorem State.writeStatus_tblIndex (s : State) (w : Word) : (s.writeStatus w).tblIndex = s.tblIndex := rfl
@[simp] theorem State.writeStatus_table (s : State) (w : Word) : (s.writeStatus w).table = s.table := rfl
@[simp] theorem State.writeStatus_pend (s : State) (w : Word) : (s.writeStatus w).pend = s.pend := rfl
@[simp] theorem State.writeStatus_cap (s : State) (w : Word) : (s.writeStatus w).cap = s.cap := rfl
@[simp] theorem State.writeStatus_host (s : State) (w : Word) : (s.writeStatus w).host = s.host := rfl
@[simp] theorem State.writeStatus_delay (s : State) (w : Word) : (s.writeStatus w).delay = s.delay := rfl
@[simp] theorem State.writeStatus_draws (s : State) (w : Word) : (s.writeStatus w).draws = s.draws := rfl

/-! ## appendBlock -/

@[simp] theorem State.appendBlock_params (s : State) (e : Entry) (n : Nat) : (s.appendBlock e n).params = s.params := rfl
@[simp] theorem State.appendBlock_ie (s : State) (e : Entry) (n : Nat) : (s.appendBlock e n).ie = s.ie := rfl
@[simp] theorem State.appendBlock_cmd (s : State) (e : Entry) (n : Nat) : (s.appendBlock e n).cmd = s.cmd := rfl
@[simp] theorem State.appendBlock_status (s : State) (e : Entry) (n : Nat) : (s.appendBlock e n).status = s.status := rfl
@[simp] theorem State.appendBlock_bufLen (s : State) (e : Entry) (n : Nat) : (s.appendBlock e n).bufLen = s.bufLen := rfl
@[simp] theorem State.appendBlock_cursor (s : State) (e : Entry) (n : Nat) : (s.appendBlock e n).cursor = BitVec.ofNat 32 n := rfl
@[simp] theorem State.appendBlock_argAddr (s : State) (e : Entry) (n : Nat) : (s.appendBlock e n).argAddr = s.argAddr := rfl
@[simp] theorem State.appendBlock_argLen (s : State) (e : Entry) (n : Nat) : (s.appendBlock e n).argLen = s.argLen := rfl
@[simp] theorem State.appendBlock_resultIndex (s : State) (e : Entry) (n : Nat) : (s.appendBlock e n).resultIndex = s.resultIndex := rfl
@[simp] theorem State.appendBlock_csum (s : State) (e : Entry) (n : Nat) : (s.appendBlock e n).csum = s.csum := rfl
@[simp] theorem State.appendBlock_tblIndex (s : State) (e : Entry) (n : Nat) : (s.appendBlock e n).tblIndex = s.tblIndex := rfl
@[simp] theorem State.appendBlock_table (s : State) (e : Entry) (n : Nat) : (s.appendBlock e n).table = s.table ++ [e] := rfl
@[simp] theorem State.appendBlock_pend (s : State) (e : Entry) (n : Nat) : (s.appendBlock e n).pend = s.pend := rfl
@[simp] theorem State.appendBlock_cap (s : State) (e : Entry) (n : Nat) : (s.appendBlock e n).cap = s.cap := rfl
@[simp] theorem State.appendBlock_host (s : State) (e : Entry) (n : Nat) : (s.appendBlock e n).host = s.host := rfl
@[simp] theorem State.appendBlock_delay (s : State) (e : Entry) (n : Nat) : (s.appendBlock e n).delay = s.delay := rfl
@[simp] theorem State.appendBlock_draws (s : State) (e : Entry) (n : Nat) : (s.appendBlock e n).draws = s.draws := rfl

/-! ## softReset -/

@[simp] theorem State.softReset_params (s : State) : (s.softReset).params = s.params := rfl
@[simp] theorem State.softReset_ie (s : State) : (s.softReset).ie = false := rfl
@[simp] theorem State.softReset_cmd (s : State) : (s.softReset).cmd = 0#4 := rfl
@[simp] theorem State.softReset_status (s : State) : (s.softReset).status = Status.reset := rfl
@[simp] theorem State.softReset_bufLen (s : State) : (s.softReset).bufLen = 0#32 := rfl
@[simp] theorem State.softReset_cursor (s : State) : (s.softReset).cursor = 0#32 := rfl
@[simp] theorem State.softReset_argAddr (s : State) : (s.softReset).argAddr = 0#32 := rfl
@[simp] theorem State.softReset_argLen (s : State) : (s.softReset).argLen = 0#32 := rfl
@[simp] theorem State.softReset_resultIndex (s : State) : (s.softReset).resultIndex = 0#32 := rfl
@[simp] theorem State.softReset_csum (s : State) : (s.softReset).csum = 0#8 := rfl
@[simp] theorem State.softReset_tblIndex (s : State) : (s.softReset).tblIndex = 0#32 := rfl
@[simp] theorem State.softReset_table (s : State) : (s.softReset).table = [] := rfl
@[simp] theorem State.softReset_pend (s : State) : (s.softReset).pend = none := rfl
@[simp] theorem State.softReset_cap (s : State) : (s.softReset).cap = s.cap := rfl
@[simp] theorem State.softReset_host (s : State) : (s.softReset).host = s.host := rfl
@[simp] theorem State.softReset_delay (s : State) : (s.softReset).delay = 0 := rfl
@[simp] theorem State.softReset_draws (s : State) : (s.softReset).draws = s.draws := rfl

/-! ## hostAt -/

@[simp] theorem State.hostAt_params (s : State) (p : Nat) : (s.hostAt p).params = s.params := rfl
@[simp] theorem State.hostAt_ie (s : State) (p : Nat) : (s.hostAt p).ie = s.ie := rfl
@[simp] theorem State.hostAt_cmd (s : State) (p : Nat) : (s.hostAt p).cmd = s.cmd := rfl
@[simp] theorem State.hostAt_status (s : State) (p : Nat) : (s.hostAt p).status = s.status := rfl
@[simp] theorem State.hostAt_bufLen (s : State) (p : Nat) : (s.hostAt p).bufLen = s.bufLen := rfl
@[simp] theorem State.hostAt_cursor (s : State) (p : Nat) : (s.hostAt p).cursor = s.cursor := rfl
@[simp] theorem State.hostAt_argAddr (s : State) (p : Nat) : (s.hostAt p).argAddr = s.argAddr := rfl
@[simp] theorem State.hostAt_argLen (s : State) (p : Nat) : (s.hostAt p).argLen = s.argLen := rfl
@[simp] theorem State.hostAt_resultIndex (s : State) (p : Nat) : (s.hostAt p).resultIndex = s.resultIndex := rfl
@[simp] theorem State.hostAt_csum (s : State) (p : Nat) : (s.hostAt p).csum = s.csum := rfl
@[simp] theorem State.hostAt_tblIndex (s : State) (p : Nat) : (s.hostAt p).tblIndex = s.tblIndex := rfl
@[simp] theorem State.hostAt_table (s : State) (p : Nat) : (s.hostAt p).table = s.table := rfl
@[simp] theorem State.hostAt_pend (s : State) (p : Nat) : (s.hostAt p).pend = s.pend := rfl
@[simp] theorem State.hostAt_cap (s : State) (p : Nat) : (s.hostAt p).cap = s.cap := rfl
@[simp] theorem State.hostAt_host (s : State) (p : Nat) : (s.hostAt p).host = { s.host with pos := p } := rfl
@[simp] theorem State.hostAt_delay (s : State) (p : Nat) : (s.hostAt p).delay = s.delay := rfl
@[simp] theorem State.hostAt_draws (s : State) (p : Nat) : (s.hostAt p).draws = s.draws := rfl

/-! ## hostGot -/

@[simp] theorem State.hostGot_params (s : State) (v : Word) : (s.hostGot v).params = s.params := rfl
@[simp] theorem State.hostGot_ie (s : State) (v : Word) : (s.hostGot v).ie = s.ie := rfl
@[simp] theorem State.hostGot_cmd (s : State) (v : Word) : (s.hostGot v).cmd = s.cmd := rfl
@[simp] theorem State.hostGot_status (s : State) (v : Word) : (s.hostGot v).status = s.status := rfl
@[simp] theorem State.hostGot_bufLen (s : State) (v : Word) : (s.hostGot v).bufLen = s.bufLen := rfl
@[simp] theorem State.hostGot_cursor (s : State) (v : Word) : (s.hostGot v).cursor = s.cursor := rfl
@[simp] theorem State.hostGot_argAddr (s : State) (v : Word) : (s.hostGot v).argAddr = s.argAddr := rfl
@[simp] theorem State.hostGot_argLen (s : State) (v : Word) : (s.hostGot v).argLen = s.argLen := rfl
@[simp] theorem State.hostGot_resultIndex (s : State) (v : Word) : (s.hostGot v).resultIndex = s.resultIndex := rfl
@[simp] theorem State.hostGot_csum (s : State) (v : Word) : (s.hostGot v).csum = s.csum := rfl
@[simp] theorem State.hostGot_tblIndex (s : State) (v : Word) : (s.hostGot v).tblIndex = s.tblIndex := rfl
@[simp] theorem State.hostGot_table (s : State) (v : Word) : (s.hostGot v).table = s.table := rfl
@[simp] theorem State.hostGot_pend (s : State) (v : Word) : (s.hostGot v).pend = s.pend := rfl
@[simp] theorem State.hostGot_cap (s : State) (v : Word) : (s.hostGot v).cap = s.cap := rfl
@[simp] theorem State.hostGot_host (s : State) (v : Word) : (s.hostGot v).host = { s.host with reads := v :: s.host.reads } := rfl
@[simp] theorem State.hostGot_delay (s : State) (v : Word) : (s.hostGot v).delay = s.delay := rfl
@[simp] theorem State.hostGot_draws (s : State) (v : Word) : (s.hostGot v).draws = s.draws := rfl

/-! ## withFetchWord -/

@[simp] theorem State.withFetchWord_params (s : State) (n w : Nat) : (s.withFetchWord n w).params = s.params := rfl
@[simp] theorem State.withFetchWord_ie (s : State) (n w : Nat) : (s.withFetchWord n w).ie = s.ie := rfl
@[simp] theorem State.withFetchWord_cmd (s : State) (n w : Nat) : (s.withFetchWord n w).cmd = opcOfWord (tableWord n w) := rfl
@[simp] theorem State.withFetchWord_status (s : State) (n w : Nat) : (s.withFetchWord n w).status = { s.status with busy := true, done := false } := rfl
@[simp] theorem State.withFetchWord_bufLen (s : State) (n w : Nat) : (s.withFetchWord n w).bufLen = s.bufLen := rfl
@[simp] theorem State.withFetchWord_cursor (s : State) (n w : Nat) : (s.withFetchWord n w).cursor = s.cursor := rfl
@[simp] theorem State.withFetchWord_argAddr (s : State) (n w : Nat) : (s.withFetchWord n w).argAddr = s.argAddr := rfl
@[simp] theorem State.withFetchWord_argLen (s : State) (n w : Nat) : (s.withFetchWord n w).argLen = s.argLen := rfl
@[simp] theorem State.withFetchWord_resultIndex (s : State) (n w : Nat) : (s.withFetchWord n w).resultIndex = s.resultIndex := rfl
@[simp] theorem State.withFetchWord_csum (s : State) (n w : Nat) : (s.withFetchWord n w).csum = s.csum := rfl
@[simp] theorem State.withFetchWord_tblIndex (s : State) (n w : Nat) : (s.withFetchWord n w).tblIndex = s.tblIndex := rfl
@[simp] theorem State.withFetchWord_table (s : State) (n w : Nat) : (s.withFetchWord n w).table = s.table := rfl
@[simp] theorem State.withFetchWord_pend (s : State) (n w : Nat) : (s.withFetchWord n w).pend = some (opcOfWord (tableWord n w)) := rfl
@[simp] theorem State.withFetchWord_cap (s : State) (n w : Nat) : (s.withFetchWord n w).cap = s.cap := rfl
@[simp] theorem State.withFetchWord_host (s : State) (n w : Nat) : (s.withFetchWord n w).host = s.host := rfl
@[simp] theorem State.withFetchWord_delay (s : State) (n w : Nat) : (s.withFetchWord n w).delay = 0 := rfl
@[simp] theorem State.withFetchWord_draws (s : State) (n w : Nat) : (s.withFetchWord n w).draws = s.draws := rfl

/-! ## withScript -/

@[simp] theorem State.withScript_params (s : State) (l : List HostLine) : (s.withScript l).params = s.params := rfl
@[simp] theorem State.withScript_ie (s : State) (l : List HostLine) : (s.withScript l).ie = s.ie := rfl
@[simp] theorem State.withScript_cmd (s : State) (l : List HostLine) : (s.withScript l).cmd = s.cmd := rfl
@[simp] theorem State.withScript_status (s : State) (l : List HostLine) : (s.withScript l).status = s.status := rfl
@[simp] theorem State.withScript_bufLen (s : State) (l : List HostLine) : (s.withScript l).bufLen = s.bufLen := rfl
@[simp] theorem State.withScript_cursor (s : State) (l : List HostLine) : (s.withScript l).cursor = s.cursor := rfl
@[simp] theorem State.withScript_argAddr (s : State) (l : List HostLine) : (s.withScript l).argAddr = s.argAddr := rfl
@[simp] theorem State.withScript_argLen (s : State) (l : List HostLine) : (s.withScript l).argLen = s.argLen := rfl
@[simp] theorem State.withScript_resultIndex (s : State) (l : List HostLine) : (s.withScript l).resultIndex = s.resultIndex := rfl
@[simp] theorem State.withScript_csum (s : State) (l : List HostLine) : (s.withScript l).csum = s.csum := rfl
@[simp] theorem State.withScript_tblIndex (s : State) (l : List HostLine) : (s.withScript l).tblIndex = s.tblIndex := rfl
@[simp] theorem State.withScript_table (s : State) (l : List HostLine) : (s.withScript l).table = s.table := rfl
@[simp] theorem State.withScript_pend (s : State) (l : List HostLine) : (s.withScript l).pend = s.pend := rfl
@[simp] theorem State.withScript_cap (s : State) (l : List HostLine) : (s.withScript l).cap = s.cap := rfl
@[simp] theorem State.withScript_host (s : State) (l : List HostLine) : (s.withScript l).host = ⟨l, 0, []⟩ := rfl
@[simp] theorem State.withScript_delay (s : State) (l : List HostLine) : (s.withScript l).delay = s.delay := rfl
@[simp] theorem State.withScript_draws (s : State) (l : List HostLine) : (s.withScript l).draws = s.draws := rfl

/-! ## drawn, the one update that looks at the state first -/

theorem State.drawn_eq (s : State) : s.drawn = { s with draws := if s.status.busy then s.draws + 1 else s.draws } := by
  unfold State.drawn; split <;> rfl

@[simp] theorem State.drawn_params (s : State) : s.drawn.params = s.params := by rw [State.drawn_eq]
@[simp] theorem State.drawn_ie (s : State) : s.drawn.ie = s.ie := by rw [State.drawn_eq]
@[simp] theorem State.drawn_cmd (s : State) : s.drawn.cmd = s.cmd := by rw [State.drawn_eq]
@[simp] theorem State.drawn_status (s : State) : s.drawn.status = s.status := by rw [State.drawn_eq]
@[simp] theorem State.drawn_bufLen (s : State) : s.drawn.bufLen = s.bufLen := by rw [State.drawn_eq]
@[simp] theorem State.drawn_cursor (s : State) : s.drawn.cursor = s.cursor := by rw [State.drawn_eq]
@[simp] theorem State.drawn_argAddr (s : State) : s.drawn.argAddr = s.argAddr := by rw [State.drawn_eq]
@[simp] theorem State.drawn_argLen (s : State) : s.drawn.argLen = s.argLen := by rw [State.drawn_eq]
@[simp] theorem State.drawn_resultIndex (s : State) : s.drawn.resultIndex = s.resultIndex := by rw [State.drawn_eq]
@[simp] theorem State.drawn_csum (s : State) : s.drawn.csum = s.csum := by rw [State.drawn_eq]
@[simp] theorem State.drawn_tblIndex (s : State) : s.drawn.tblIndex = s.tblIndex := by rw [State.drawn_eq]
@[simp] theorem State.drawn_table (s : State) : s.drawn.table = s.table := by rw [State.drawn_eq]
@[simp] theorem State.drawn_pend (s : State) : s.drawn.pend = s.pend := by rw [State.drawn_eq]
@[simp] theorem State.drawn_cap (s : State) : s.drawn.cap = s.cap := by rw [State.drawn_eq]
@[simp] theorem State.drawn_host (s : State) : s.drawn.host = s.host := by rw [State.drawn_eq]
@[simp] theorem State.drawn_delay (s : State) : s.drawn.delay = s.delay := by rw [State.drawn_eq]
@[simp] theorem State.drawn_draws (s : State) : s.drawn.draws = if s.status.busy then s.draws + 1 else s.draws := by rw [State.drawn_eq]

/-! ## STATUS after W1C -/

@[simp] theorem Status.w1c_busy (st : Status) (w : Word) : (st.w1c w).busy = st.busy := rfl
@[simp] theorem Status.w1c_done (st : Status) (w : Word) : (st.w1c w).done = (st.done && !w.getLsbD 1) := rfl
@[simp] theorem Status.w1c_ovr (st : Status) (w : Word) : (st.w1c w).ovr = (st.ovr && !w.getLsbD 3) := rfl
@[simp] theorem Status.w1c_found (st : Status) (w : Word) : (st.w1c w).found = st.found := rfl
@[simp] theorem Status.w1c_result (st : Status) (w : Word) : (st.w1c w).result = st.result := rfl
@[simp] theorem Status.w1c_flags (st : Status) (w : Word) : (st.w1c w).flags = st.flags := rfl

/-! ## Reset -/

@[simp] theorem State.resetWith_params (p : Params) : (State.resetWith p).params = p := rfl
@[simp] theorem State.resetWith_ie (p : Params) : (State.resetWith p).ie = false := rfl
@[simp] theorem State.resetWith_cmd (p : Params) : (State.resetWith p).cmd = 0#4 := rfl
@[simp] theorem State.resetWith_status (p : Params) : (State.resetWith p).status = Status.reset := rfl
@[simp] theorem State.resetWith_bufLen (p : Params) : (State.resetWith p).bufLen = 0#32 := rfl
@[simp] theorem State.resetWith_cursor (p : Params) : (State.resetWith p).cursor = 0#32 := rfl
@[simp] theorem State.resetWith_argAddr (p : Params) : (State.resetWith p).argAddr = 0#32 := rfl
@[simp] theorem State.resetWith_argLen (p : Params) : (State.resetWith p).argLen = 0#32 := rfl
@[simp] theorem State.resetWith_resultIndex (p : Params) : (State.resetWith p).resultIndex = 0#32 := rfl
@[simp] theorem State.resetWith_csum (p : Params) : (State.resetWith p).csum = 0#8 := rfl
@[simp] theorem State.resetWith_tblIndex (p : Params) : (State.resetWith p).tblIndex = 0#32 := rfl
@[simp] theorem State.resetWith_table (p : Params) : (State.resetWith p).table = [] := rfl
@[simp] theorem State.resetWith_pend (p : Params) : (State.resetWith p).pend = none := rfl
@[simp] theorem State.resetWith_cap (p : Params) : (State.resetWith p).cap = [] := rfl
@[simp] theorem State.resetWith_host (p : Params) : (State.resetWith p).host = ⟨[], 0, []⟩ := rfl
@[simp] theorem State.resetWith_delay (p : Params) : (State.resetWith p).delay = 0 := rfl
@[simp] theorem State.resetWith_draws (p : Params) : (State.resetWith p).draws = 0 := rfl

end Sys2Proof.Machine
end

