-- ==== Sys2Proof/Laws/Memory.lean ====
section
/-! SUPPORT. Sys2Proof/Laws/Memory.lean: the laws of the capture memory: read after write, the canonical form, and what
the engine's reads answer. -/

namespace Sys2Proof.Machine

open Sys2Proof

/-! ## Read after write -/

theorem Memory.read_write_same (m : Memory) (i : Nat) (b : Byte) : (m.write i b).read i = some b := by
  induction m with
  | nil => simp [Memory.write, Memory.read]
  | cons c m ih =>
    obtain ⟨k, v⟩ := c
    unfold Memory.write
    split
    · simp [Memory.read]
    · split
      · simp [Memory.read]
      · rw [Memory.read, if_neg (by omega)]; exact ih

theorem Memory.read_write_other (m : Memory) {i j : Nat} (b : Byte) (h : j ≠ i) : (m.write i b).read j = m.read j := by
  induction m with
  | nil => simp [Memory.write, Memory.read, h.symm]
  | cons c m ih =>
    obtain ⟨k, v⟩ := c
    unfold Memory.write
    split
    · simp [Memory.read, h.symm]
    · split
      · rename_i _ hik
        subst hik
        simp [Memory.read, h.symm]
      · simp only [Memory.read]
        split
        · rfl
        · exact ih

/-! ## The canonical form -/

/-- A write lists no index but its own and those listed before. -/
theorem Memory.mem_write {m : Memory} {i : Nat} {b : Byte} {c : Host.Cell} (h : c ∈ m.write i b) : c = (i, b) ∨ c ∈ m := by
  induction m with
  | nil => simpa [Memory.write] using h
  | cons d m ih =>
    obtain ⟨k, v⟩ := d
    unfold Memory.write at h
    split at h
    · simpa using h
    · split at h
      · rcases List.mem_cons.1 h with h | h
        · exact .inl h
        · exact .inr (List.mem_cons_of_mem _ h)
      · rcases List.mem_cons.1 h with h | h
        · exact .inr (by simp [h])
        · rcases ih h with h | h
          · exact .inl h
          · exact .inr (List.mem_cons_of_mem _ h)

theorem Memory.wf_nil : Memory.wf [] := List.Pairwise.nil

/-- A write keeps the canonical form. -/
theorem Memory.wf_write {m : Memory} (h : m.wf) (i : Nat) (b : Byte) : Memory.wf (m.write i b) := by
  induction m with
  | nil => simp [Memory.wf, Memory.write]
  | cons c m ih =>
    obtain ⟨k, v⟩ := c
    obtain ⟨hk, hm⟩ := List.pairwise_cons.1 h
    unfold Memory.write
    split
    · rename_i hik
      refine List.pairwise_cons.2 ⟨fun d hd => ?_, h⟩
      rcases List.mem_cons.1 hd with rfl | hd
      · exact hik
      · exact Nat.lt_trans hik (hk d hd)
    · split
      · rename_i _ hik
        subst hik
        exact List.pairwise_cons.2 ⟨hk, hm⟩
      · refine List.pairwise_cons.2 ⟨fun d hd => ?_, ih hm⟩
        rcases Memory.mem_write hd with rfl | hd
        · show k < i
          omega
        · exact hk d hd

/-- A byte that reads is listed. -/
theorem Memory.mem_of_read {m : Memory} {i : Nat} {b : Byte} (h : m.read i = some b) : (i, b) ∈ m := by
  induction m with
  | nil => simp [Memory.read] at h
  | cons c m ih =>
    obtain ⟨k, v⟩ := c
    rw [Memory.read] at h
    split at h
    · rename_i hk
      simp [hk] at h ⊢
      exact .inl h.symm
    · exact List.mem_cons_of_mem _ (ih h)

/-! ## What a read answers -/

/-- A read is the stored byte, or the fault that names the unwritten index. -/
theorem Memory.fetch_ok {m : Memory} {i : Nat} {b : Byte} : m.fetch i = .ok b ↔ m.read i = some b := by
  unfold Memory.fetch
  cases m.read i <;> simp

theorem Memory.fetch_error {m : Memory} {i : Nat} {f : Fault} :
    m.fetch i = .error f ↔ m.read i = none ∧ f = .unwrittenCaptureByte i := by
  unfold Memory.fetch
  cases m.read i <;> simp [eq_comm]

/-- A read of a written byte answers it. -/
theorem Memory.fetch_of_isSome {m : Memory} {i : Nat} (h : (m.read i).isSome) : m.fetch i = .ok (m.byteAt i) := by
  obtain ⟨b, hb⟩ := Option.isSome_iff_exists.1 h
  simp [Memory.fetch, Memory.byteAt, hb]

theorem Memory.fetch_ok_byteAt {m : Memory} {i : Nat} {b : Byte} (h : m.fetch i = .ok b) : b = m.byteAt i := by
  rw [Memory.fetch_ok] at h; simp [Memory.byteAt, h]

theorem Memory.byteAt_write_same (m : Memory) (i : Nat) (b : Byte) : Memory.byteAt (m.write i b) i = b := by
  simp [Memory.byteAt, Memory.read_write_same]

@[simp] theorem Memory.slice_zero (m : Memory) (a : Nat) : m.slice a 0 = [] := rfl

theorem Memory.slice_succ (m : Memory) (a n : Nat) : m.slice a (n + 1) = m.byteAt a :: m.slice (a + 1) n := by
  simp only [Memory.slice, List.range_succ_eq_map, List.map_cons, List.map_map, Nat.add_zero, List.cons.injEq, true_and]
  refine List.map_congr_left fun j _ => ?_
  simp only [Function.comp, Nat.succ_eq_add_one]
  congr 1
  omega

@[simp] theorem Memory.slice_length (m : Memory) (a n : Nat) : (m.slice a n).length = n := by simp [Memory.slice]

/-- A range read of written bytes answers the range. -/
theorem Memory.fetchRange_of_written {m : Memory} {a n : Nat} (h : m.Written a (a + n)) :
    m.fetchRange a n = .ok (m.slice a n) := by
  induction n generalizing a with
  | zero => rfl
  | succ n ih =>
    rw [Memory.fetchRange, Memory.fetch_of_isSome (h a (Nat.le_refl a) (by omega)),
      ih fun i hi hi' => h i (by omega) (by omega), Memory.slice_succ]

/-- A range read that answers answers the range. -/
theorem Memory.fetchRange_ok {m : Memory} {a n : Nat} {bs : List Byte} (h : m.fetchRange a n = .ok bs) :
    bs = m.slice a n ∧ m.Written a (a + n) := by
  induction n generalizing a bs with
  | zero =>
    simp only [Memory.fetchRange, Except.ok.injEq] at h
    exact ⟨h.symm, fun i hi hi' => absurd hi' (by omega)⟩
  | succ n ih =>
    rw [Memory.fetchRange] at h
    split at h
    · cases h
    · rename_i b hb
      split at h
      · cases h
      · rename_i cs hcs
        obtain ⟨rfl, hw⟩ := ih hcs
        cases h
        refine ⟨by rw [Memory.slice_succ, Memory.fetch_ok_byteAt hb], fun i hi hi' => ?_⟩
        rcases Nat.eq_or_lt_of_le hi with rfl | hi
        · simp [Memory.fetch_ok.1 hb]
        · exact hw i hi (by omega)

/-- A range read that faults faults at an unwritten index of the range. -/
theorem Memory.fetchRange_error {m : Memory} {a n : Nat} {f : Fault} (h : m.fetchRange a n = .error f) :
    ∃ i, a ≤ i ∧ i < a + n ∧ m.read i = none ∧ f = .unwrittenCaptureByte i := by
  induction n generalizing a with
  | zero => cases h
  | succ n ih =>
    rw [Memory.fetchRange] at h
    split at h
    · rename_i g hg
      cases h
      obtain ⟨hn, rfl⟩ := Memory.fetch_error.1 hg
      exact ⟨a, Nat.le_refl a, by omega, hn, rfl⟩
    · split at h
      · rename_i g hg
        cases h
        obtain ⟨i, h1, h2, h3, h4⟩ := ih hg
        exact ⟨i, by omega, by omega, h3, h4⟩
      · cases h

/-- Reads look at their own index only. -/
theorem Memory.fetch_congr {m m' : Memory} {i : Nat} (h : m.read i = m'.read i) : m.fetch i = m'.fetch i := by
  simp [Memory.fetch, h]

theorem Memory.fetchRange_congr {m m' : Memory} {a n : Nat} (h : m.AgreeOn m' a (a + n)) :
    m.fetchRange a n = m'.fetchRange a n := by
  induction n generalizing a with
  | zero => rfl
  | succ n ih =>
    rw [Memory.fetchRange, Memory.fetchRange, Memory.fetch_congr (h a (Nat.le_refl a) (by omega)),
      ih fun i hi hi' => h i (by omega) (by omega)]

end Sys2Proof.Machine
end

