-- ==== Sys2Proof/Laws/Scan.lean ====
section
/-! SUPPORT. Sys2Proof/Laws/Scan.lean: what the loops of PilotScan and MagicScan answer, where they fault, and what they
look at. -/

namespace Sys2Proof.Machine

open Sys2Proof

/-! ## PilotScan -/

/-- The loop of PilotScan from `i`, when the `count` bytes before `i` are the run so far and no pilot ends at or before
`i`: it answers the least pilot end. -/
theorem pilotLoop_ok {m : Memory} {c i count n : Nat} {r : Option Nat} (hci : c + count ≤ i) (hlt : count < 256)
    (hz : ∀ j, i - count ≤ j → j < i → m.byteAt j = 0#8)
    (hb : i = c + count ∨ m.byteAt (i - count - 1) ≠ 0#8)
    (hn : ∀ q L, q ≤ i → ¬ PilotAt m c L q)
    (h : pilotLoop m i count n = .ok r) : LeastOrNone (PilotAt m c (i + n)) r := by
  induction n generalizing i count with
  | zero =>
    simp only [pilotLoop, Except.ok.injEq] at h
    subst h
    intro q hq
    exact hn q _ hq.2.1 hq
  | succ n ih =>
    rw [pilotLoop] at h
    split at h
    · cases h
    rename_i b hfetch
    have hbyte := Memory.fetch_ok_byteAt hfetch
    have hL : i + (n + 1) = i + 1 + n := by omega
    rw [hL]
    by_cases h0 : b = 0x00#8
    · simp only [if_pos h0] at h
      have hz' : ∀ j, i + 1 - (count + 1) ≤ j → j < i + 1 → m.byteAt j = 0#8 := by
        intro j hj hj'
        rcases Nat.lt_or_ge j i with hji | hji
        · exact hz j (by omega) hji
        · obtain rfl : j = i := by omega
          rw [← hbyte, h0]
      by_cases h256 : count + 1 = pilotLen
      · rw [if_pos h256] at h
        cases h
        have h256' : count = 255 := by simpa [pilotLen] using h256
        subst h256'
        refine ⟨⟨by omega, by omega, fun j hj hj' => hz' j (by omega) hj'⟩, fun q hq => ?_⟩
        rcases Nat.lt_or_ge i q with hq' | hq'
        · exact hq'
        · exact absurd hq (hn q _ hq')
      · rw [if_neg h256] at h
        have h256' : count + 1 ≠ 256 := h256
        refine ih (by omega) (by omega) hz' ?_ ?_ h
        · rcases hb with hb | hb
          · exact .inl (by omega)
          · exact .inr (by rwa [show i + 1 - (count + 1) - 1 = i - count - 1 by omega])
        · intro q L hq hp
          rcases Nat.lt_or_ge q (i + 1) with hqi | hqi
          · exact hn q L (by omega) hp
          · obtain rfl : q = i + 1 := by omega
            rcases hb with hb | hb
            · have := hp.1; omega
            · rcases Nat.lt_or_ge (i - count) (c + 1) with hic | hic
              · have := hp.1; omega
              · exact hb (hp.2.2 _ (by omega) (by omega))
    · simp only [if_neg h0] at h
      rw [if_neg (show ¬ (0 : Nat) = pilotLen by decide)] at h
      refine ih (by omega) (by omega) (fun j hj hj' => absurd hj' (by omega)) ?_ ?_ h
      · exact .inr (by simpa [hbyte] using h0)
      · intro q L hq hp
        rcases Nat.lt_or_ge q (i + 1) with hqi | hqi
        · exact hn q L (by omega) hp
        · obtain rfl : q = i + 1 := by omega
          exact h0 (by rw [hbyte]; exact hp.2.2 i (by have := hp.1; omega) (by omega))

/-- The loop of PilotScan answers on written bytes. -/
theorem pilotLoop_of_written {m : Memory} {i count n : Nat} (h : m.Written i (i + n)) :
    ∃ r, pilotLoop m i count n = .ok r := by
  induction n generalizing i count with
  | zero => exact ⟨none, rfl⟩
  | succ n ih =>
    rw [pilotLoop, Memory.fetch_of_isSome (h i (Nat.le_refl i) (by omega))]
    dsimp only
    split <;> split
    all_goals first
      | exact ⟨_, rfl⟩
      | exact ih fun j hj hj' => h j (by omega) (by omega)

/-- The loop of PilotScan faults only at an unwritten byte it was given to look at. -/
theorem pilotLoop_error {m : Memory} {i count n : Nat} {f : Fault} (h : pilotLoop m i count n = .error f) :
    ∃ j, i ≤ j ∧ j < i + n ∧ m.read j = none ∧ f = .unwrittenCaptureByte j := by
  induction n generalizing i count with
  | zero => cases h
  | succ n ih =>
    rw [pilotLoop] at h
    split at h
    · rename_i g hg
      cases h
      obtain ⟨hr, rfl⟩ := Memory.fetch_error.1 hg
      exact ⟨i, Nat.le_refl i, by omega, hr, rfl⟩
    · dsimp only at h
      split at h <;> split at h
      all_goals first
        | cases h
        | obtain ⟨j, h1, h2, h3⟩ := ih h
          exact ⟨j, by omega, by omega, h3⟩

theorem pilotLoop_congr {m m' : Memory} {i count n : Nat} (h : m.AgreeOn m' i (i + n)) :
    pilotLoop m i count n = pilotLoop m' i count n := by
  induction n generalizing i count with
  | zero => rfl
  | succ n ih =>
    have key : ∀ k, pilotLoop m (i + 1) k n = pilotLoop m' (i + 1) k n :=
      fun _ => ih fun j hj hj' => h j (by omega) (by omega)
    simp only [pilotLoop, Memory.fetch_congr (h i (Nat.le_refl i) (by omega)), key]

/-! ## MagicScan -/

/-- The comparison answers whether the bytes are those. -/
theorem matchesAt_ok {m : Memory} {i : Nat} {bs : List Byte} {r : Bool} (h : matchesAt m i bs = .ok r) :
    r = decide (m.slice i bs.length = bs) := by
  induction bs generalizing i with
  | nil => cases h; rfl
  | cons b bs ih =>
    rw [matchesAt] at h
    split at h
    · cases h
    · rename_i x hx
      rw [Memory.fetch_ok_byteAt hx] at h
      rw [List.length_cons, Memory.slice_succ]
      split at h
      · rename_i hxb
        rw [ih h, hxb]
        simp
      · rename_i hxb
        cases h
        simp [hxb]

theorem matchesAt_of_written {m : Memory} {i : Nat} {bs : List Byte} (h : m.Written i (i + bs.length)) :
    ∃ r, matchesAt m i bs = .ok r := by
  induction bs generalizing i with
  | nil => exact ⟨true, rfl⟩
  | cons b bs ih =>
    rw [List.length_cons] at h
    rw [matchesAt, Memory.fetch_of_isSome (h i (Nat.le_refl i) (by omega))]
    dsimp only
    split
    · exact ih fun j hj hj' => h j (by omega) (by omega)
    · exact ⟨_, rfl⟩

theorem matchesAt_error {m : Memory} {i : Nat} {bs : List Byte} {f : Fault} (h : matchesAt m i bs = .error f) :
    ∃ j, i ≤ j ∧ j < i + bs.length ∧ m.read j = none ∧ f = .unwrittenCaptureByte j := by
  induction bs generalizing i with
  | nil => cases h
  | cons b bs ih =>
    rw [matchesAt] at h
    rw [List.length_cons]
    split at h
    · rename_i g hg
      cases h
      obtain ⟨hr, rfl⟩ := Memory.fetch_error.1 hg
      exact ⟨i, Nat.le_refl i, by omega, hr, rfl⟩
    · split at h
      · obtain ⟨j, h1, h2, h3⟩ := ih h
        exact ⟨j, by omega, by omega, h3⟩
      · cases h

theorem matchesAt_congr {m m' : Memory} {i : Nat} {bs : List Byte} (h : m.AgreeOn m' i (i + bs.length)) :
    matchesAt m i bs = matchesAt m' i bs := by
  induction bs generalizing i with
  | nil => rfl
  | cons b bs ih =>
    rw [List.length_cons] at h
    have key : matchesAt m (i + 1) bs = matchesAt m' (i + 1) bs := ih fun j hj hj' => h j (by omega) (by omega)
    simp only [matchesAt, Memory.fetch_congr (h i (Nat.le_refl i) (by omega)), key]

@[simp] theorem magic_length : magic.length = 5 := rfl

/-- The loop of MagicScan over `n` candidates answers the least match. -/
theorem magicLoop_ok {m : Memory} {i n : Nat} {r : Option Nat} (h : magicLoop m i n = .ok r) :
    LeastOrNone (fun x => i ≤ x ∧ x < i + n ∧ m.slice x 5 = magic) r := by
  induction n generalizing i with
  | zero =>
    cases h
    exact fun x hx => absurd hx.2.1 (by omega)
  | succ n ih =>
    rw [magicLoop] at h
    split at h
    · cases h
    · rename_i hm
      cases h
      have := matchesAt_ok hm
      exact ⟨⟨Nat.le_refl i, by omega, of_decide_eq_true this.symm⟩, fun x hx => hx.1⟩
    · rename_i hm
      have hno : m.slice i 5 ≠ magic := of_decide_eq_false (matchesAt_ok hm).symm
      have key := ih h
      cases r with
      | none =>
        intro x hx
        refine key x ⟨?_, by omega, hx.2.2⟩
        rcases Nat.eq_or_lt_of_le hx.1 with rfl | h
        · exact absurd hx.2.2 hno
        · exact h
      | some x =>
        obtain ⟨⟨h1, h2, h3⟩, hl⟩ := key
        refine ⟨⟨by omega, by omega, h3⟩, fun y hy => hl y ⟨?_, by omega, hy.2.2⟩⟩
        rcases Nat.eq_or_lt_of_le hy.1 with rfl | h
        · exact absurd hy.2.2 hno
        · exact h

theorem magicLoop_of_written {m : Memory} {i n : Nat} (h : n ≠ 0 → m.Written i (i + n + 4)) :
    ∃ r, magicLoop m i n = .ok r := by
  induction n generalizing i with
  | zero => exact ⟨none, rfl⟩
  | succ n ih =>
    have h := h (by omega)
    obtain ⟨b, hb⟩ := matchesAt_of_written (m := m) (i := i) (bs := magic)
      fun j hj hj' => h j hj (by simp only [magic_length] at hj'; omega)
    rw [magicLoop, hb]
    cases b
    · exact ih fun _ j hj hj' => h j (by omega) (by omega)
    · exact ⟨_, rfl⟩

theorem magicLoop_error {m : Memory} {i n : Nat} {f : Fault} (h : magicLoop m i n = .error f) :
    ∃ j, i ≤ j ∧ j < i + n + 4 ∧ m.read j = none ∧ f = .unwrittenCaptureByte j := by
  induction n generalizing i with
  | zero => cases h
  | succ n ih =>
    rw [magicLoop] at h
    split at h
    · rename_i g hg
      cases h
      obtain ⟨j, h1, h2, h3⟩ := matchesAt_error hg
      simp only [magic_length] at h2
      exact ⟨j, h1, by omega, h3⟩
    · cases h
    · obtain ⟨j, h1, h2, h3⟩ := ih h
      exact ⟨j, by omega, by omega, h3⟩

theorem magicLoop_congr {m m' : Memory} {i n : Nat} (h : n ≠ 0 → m.AgreeOn m' i (i + n + 4)) :
    magicLoop m i n = magicLoop m' i n := by
  induction n generalizing i with
  | zero => rfl
  | succ n ih =>
    have h := h (by omega)
    have h5 : matchesAt m i magic = matchesAt m' i magic :=
      matchesAt_congr fun j hj hj' => h j hj (by simp only [magic_length] at hj'; omega)
    have key : magicLoop m (i + 1) n = magicLoop m' (i + 1) n := ih fun _ j hj hj' => h j (by omega) (by omega)
    simp only [magicLoop, h5, key]

/-! ## The scans over `CAP[c … L−1]` -/

theorem pilotScan_of_written {m : Memory} {c L : Nat} (h : m.Written c L) : ∃ r, pilotScan m c L = .ok r :=
  pilotLoop_of_written fun j hj hj' => h j hj (by omega)

theorem magicScan_of_written {m : Memory} {c L : Nat} (h : m.Written c L) : ∃ r, magicScan m c L = .ok r :=
  magicLoop_of_written fun hn j hj hj' => h j hj (by simp only [magicLen] at hn hj'; omega)

theorem pilotScan_error {m : Memory} {c L : Nat} {f : Fault} (h : pilotScan m c L = .error f) :
    ∃ j, c ≤ j ∧ j < L ∧ m.read j = none ∧ f = .unwrittenCaptureByte j := by
  obtain ⟨j, h1, h2, h3⟩ := pilotLoop_error h
  exact ⟨j, h1, by omega, h3⟩

theorem magicScan_error {m : Memory} {c L : Nat} {f : Fault} (h : magicScan m c L = .error f) :
    ∃ j, c ≤ j ∧ j < L ∧ m.read j = none ∧ f = .unwrittenCaptureByte j := by
  rcases Nat.eq_zero_or_pos (L - c - (magicLen - 1)) with h0 | h0
  · rw [magicScan, h0] at h; cases h
  · obtain ⟨j, h1, h2, h3⟩ := magicLoop_error h
    simp only [magicLen] at h0 h2
    exact ⟨j, h1, by omega, h3⟩

theorem pilotScan_congr {m m' : Memory} {c L : Nat} (h : m.AgreeOn m' c L) : pilotScan m c L = pilotScan m' c L :=
  pilotLoop_congr fun j hj hj' => h j hj (by omega)

theorem magicScan_congr {m m' : Memory} {c L : Nat} (h : m.AgreeOn m' c L) : magicScan m c L = magicScan m' c L :=
  magicLoop_congr fun hn j hj hj' => h j hj (by simp only [magicLen] at hn hj'; omega)

/-- The bounds of an answer of the scans (R70, R71). -/
theorem pilotScan_bounds {m : Memory} {c L p : Nat} (h : pilotScan m c L = .ok (some p)) :
    c + 256 ≤ p ∧ p ≤ L := by
  have := pilotLoop_ok (c := c) (i := c) (count := 0) (by omega) (by decide) (fun j hj hj' => absurd hj' (by omega))
    (.inl rfl) (fun q L hq hp => by have := hp.1; omega) h
  have h1 := this.1.1
  have h2 := this.1.2.1
  omega

theorem magicScan_bounds {m : Memory} {c L i : Nat} (h : magicScan m c L = .ok (some i)) :
    c ≤ i ∧ i + 5 ≤ L ∧ m.slice i 5 = magic := by
  obtain ⟨⟨h1, h2, h3⟩, -⟩ := magicLoop_ok h
  simp only [magicLen] at h2
  exact ⟨h1, by omega, h3⟩

end Sys2Proof.Machine
end

