-- ==== Sys2Proof/Laws/Decoding.lean ====
section
/-! SUPPORT. Sys2Proof/Laws/Decoding.lean: the checksum's arithmetic, and one pure function that says what DecodeAt's steps
2 to 8 answer, where they fault and what they look at. -/

namespace Sys2Proof.Machine

open Sys2Proof

/-! ## Rollover -/

/-- The 8-bit accumulator from any start value. -/
theorem foldl_add_toNat (bs : List Byte) (acc : Byte) :
    (bs.foldl (· + ·) acc).toNat = (acc.toNat + (bs.map BitVec.toNat).sum) % 256 := by
  induction bs generalizing acc with
  | nil => simp [Nat.mod_eq_of_lt acc.isLt]
  | cons b bs ih =>
    rw [List.foldl_cons, ih, BitVec.toNat_add, List.map_cons, List.sum_cons]
    omega

theorem rollover_eq_iff (bs : List Byte) (b : Byte) : rollover bs = b ↔ sumMod256 bs = b.toNat := by
  rw [← BitVec.toNat_inj, rollover, foldl_add_toNat]
  simp [sumMod256]

/-- R76's loop from any running sum below 256. -/
theorem rolloverLoop_eq (bs : List Byte) {acc : Nat} (h : acc < 256) :
    rolloverLoop acc bs = (acc + (bs.map BitVec.toNat).sum) % 256 := by
  induction bs generalizing acc with
  | nil => simp [rolloverLoop, Nat.mod_eq_of_lt h]
  | cons b bs ih =>
    have hb := b.isLt
    rw [rolloverLoop, List.map_cons, List.sum_cons]
    split
    · rw [ih (by omega)]; omega
    · rw [ih (by omega)]; omega

/-! ## The header -/

theorem dataSizeOf_pos (z : Byte) : 1 ≤ dataSizeOf z := by
  unfold dataSizeOf maxData
  split
  · decide
  · rename_i h
    rcases Nat.eq_zero_or_pos z.toNat with h0 | h0
    · exact absurd (BitVec.eq_of_toNat_eq h0) h
    · exact h0

theorem dataSizeOf_le (z : Byte) : dataSizeOf z ≤ 256 := by
  unfold dataSizeOf maxData
  split
  · decide
  · exact Nat.le_of_lt z.isLt

theorem sizeAt_eq (m : Memory) (s : Nat) : m.sizeAt s = dataSizeOf (m.byteAt (s + 7)) := rfl

theorem sizeAt_pos (m : Memory) (s : Nat) : 1 ≤ m.sizeAt s := dataSizeOf_pos _

theorem sizeAt_le (m : Memory) (s : Nat) : m.sizeAt s ≤ 256 := dataSizeOf_le _

/-- The header a claim names. -/
def Memory.headerAt (m : Memory) (s : Nat) : Header :=
  ⟨m.byteAt (s + 5), m.byteAt (s + 6), m.byteAt (s + 7), m.byteAt (s + 8), m.byteAt (s + 9)⟩

theorem Memory.headerAt_covered (m : Memory) (s : Nat) : (m.headerAt s).covered = m.slice (s + 5) 4 := by
  simp [Memory.headerAt, Header.covered, Memory.slice, List.range_succ]

theorem readHeader_of_written {m : Memory} {s : Nat} (h : m.Written (s + 5) (s + 10)) :
    readHeader m s = .ok (m.headerAt s) := by
  simp only [readHeader, Memory.fetch_of_isSome (h (s + 5) (by omega) (by omega)),
    Memory.fetch_of_isSome (h (s + 6) (by omega) (by omega)), Memory.fetch_of_isSome (h (s + 7) (by omega) (by omega)),
    Memory.fetch_of_isSome (h (s + 8) (by omega) (by omega)), Memory.fetch_of_isSome (h (s + 9) (by omega) (by omega)),
    Memory.headerAt]

/-- Reading the header answers it, or faults at the first unwritten byte of offsets 5 to 9. -/
theorem readHeader_cases (m : Memory) (s : Nat) :
    readHeader m s = .ok (m.headerAt s) ∨
    ∃ j, s + 5 ≤ j ∧ j < s + 10 ∧ m.read j = none ∧ readHeader m s = .error (.unwrittenCaptureByte j) := by
  by_cases h : m.Written (s + 5) (s + 10)
  · exact .inl (readHeader_of_written h)
  · right
    have key : ∀ i, m.fetch i = .ok (m.byteAt i) ∨ m.read i = none ∧ m.fetch i = .error (.unwrittenCaptureByte i) := by
      intro i
      cases hi : m.read i with
      | none => exact .inr ⟨rfl, by simp [Memory.fetch, hi]⟩
      | some b => exact .inl (Memory.fetch_of_isSome (by simp [hi]))
    rcases key (s + 5) with h5 | ⟨n5, h5⟩
    · rcases key (s + 6) with h6 | ⟨n6, h6⟩
      · rcases key (s + 7) with h7 | ⟨n7, h7⟩
        · rcases key (s + 8) with h8 | ⟨n8, h8⟩
          · rcases key (s + 9) with h9 | ⟨n9, h9⟩
            · exfalso
              apply h
              intro j hj hj'
              rw [Memory.fetch_ok] at h5 h6 h7 h8 h9
              obtain rfl | rfl | rfl | rfl | rfl : j = s + 5 ∨ j = s + 6 ∨ j = s + 7 ∨ j = s + 8 ∨ j = s + 9 := by omega
              · rw [h5]; rfl
              · rw [h6]; rfl
              · rw [h7]; rfl
              · rw [h8]; rfl
              · rw [h9]; rfl
            · exact ⟨s + 9, by omega, by omega, n9, by simp only [readHeader, h5, h6, h7, h8, h9]⟩
          · exact ⟨s + 8, by omega, by omega, n8, by simp only [readHeader, h5, h6, h7, h8]⟩
        · exact ⟨s + 7, by omega, by omega, n7, by simp only [readHeader, h5, h6, h7]⟩
      · exact ⟨s + 6, by omega, by omega, n6, by simp only [readHeader, h5, h6]⟩
    · exact ⟨s + 5, by omega, by omega, n5, by simp only [readHeader, h5]⟩

theorem readHeader_congr {m m' : Memory} {s : Nat} (h : m.AgreeOn m' (s + 5) (s + 10)) :
    readHeader m s = readHeader m' s := by
  simp only [readHeader, Memory.fetch_congr (h (s + 5) (by omega) (by omega)),
    Memory.fetch_congr (h (s + 6) (by omega) (by omega)), Memory.fetch_congr (h (s + 7) (by omega) (by omega)),
    Memory.fetch_congr (h (s + 8) (by omega) (by omega)), Memory.fetch_congr (h (s + 9) (by omega) (by omega))]

/-! ## Steps 2 to 8 -/

/-- What steps 2 to 8 answer on the candidate at `s`, as a function of the bytes alone. -/
def frameVerdict (m : Memory) (L s : Nat) (first : Bool) : DecodeResult :=
  if L - s < 10 then .fail .incompleteHeader
  else if m.slice s 5 ≠ magic then .fail .invalidHeader
  else if rollover (m.slice (s + 5) 4) ≠ m.byteAt (s + 9) then .fail .headerCsumMismatch
  else if L - s < 10 + m.sizeAt s + 1 then .fail .blockIncomplete
  else if rollover (m.slice (s + 10) (m.sizeAt s)) ≠ m.byteAt (s + 10 + m.sizeAt s) then .fail .dataCsumMismatch
  else .block (entryOf s (rawLength (m.sizeAt s) (L - s)) first (m.headerAt s) (m.byteAt (s + 10 + m.sizeAt s)))
    (s + rawLength (m.sizeAt s) (L - s))

/-- Steps 7 and 8 answer the verdict's last two cases, or fault at an unwritten byte they look at. -/
theorem decodeData_cases {m : Memory} {L s : Nat} (first : Bool) (h : ¬ L - s < 10 + m.sizeAt s + 1) :
    decodeData m L s first (m.headerAt s) =
        .ok (if rollover (m.slice (s + 10) (m.sizeAt s)) ≠ m.byteAt (s + 10 + m.sizeAt s) then .fail .dataCsumMismatch
          else .block (entryOf s (rawLength (m.sizeAt s) (L - s)) first (m.headerAt s) (m.byteAt (s + 10 + m.sizeAt s)))
            (s + rawLength (m.sizeAt s) (L - s))) ∨
    ∃ j, s ≤ j ∧ j < L ∧ m.read j = none ∧
      decodeData m L s first (m.headerAt s) = .error (.unwrittenCaptureByte j) := by
  unfold decodeData
  rw [show dataSizeOf (m.headerAt s).sizeByte = m.sizeAt s from rfl, show hdrLen = 10 from rfl]
  cases hd : m.fetchRange (s + 10) (m.sizeAt s) with
  | error f =>
    obtain ⟨j, h1, h2, h3, rfl⟩ := Memory.fetchRange_error hd
    exact .inr ⟨j, by omega, by omega, h3, rfl⟩
  | ok ds =>
    obtain ⟨rfl, -⟩ := Memory.fetchRange_ok hd
    cases hc : m.fetch (s + 10 + m.sizeAt s) with
    | error f =>
      obtain ⟨h3, rfl⟩ := Memory.fetch_error.1 hc
      exact .inr ⟨_, by omega, by omega, h3, rfl⟩
    | ok dc =>
      rw [Memory.fetch_ok_byteAt hc]
      left
      by_cases hr : rollover (m.slice (s + 10) (m.sizeAt s)) = m.byteAt (s + 10 + m.sizeAt s) <;> simp [hr]

/-- Steps 2 to 8 answer the verdict, or fault at an unwritten byte they look at. -/
theorem decodeFrame_cases (m : Memory) (L s : Nat) (first : Bool) :
    decodeFrame m L s first = .ok (frameVerdict m L s first) ∨
    ∃ j, s ≤ j ∧ j < L ∧ m.read j = none ∧ decodeFrame m L s first = .error (.unwrittenCaptureByte j) := by
  unfold decodeFrame frameVerdict
  rw [show hdrLen = 10 from rfl, show magicLen = 5 from rfl]
  by_cases h10 : L - s < 10
  · rw [if_pos h10, if_pos h10]; exact .inl rfl
  rw [if_neg h10, if_neg h10]
  cases hm : m.fetchRange s 5 with
  | error f =>
    obtain ⟨j, h1, h2, h3, rfl⟩ := Memory.fetchRange_error hm
    exact .inr ⟨j, h1, by omega, h3, rfl⟩
  | ok bs =>
    obtain ⟨rfl, -⟩ := Memory.fetchRange_ok hm
    dsimp only
    by_cases hmag : m.slice s 5 ≠ magic
    · rw [if_pos hmag, if_pos hmag]; exact .inl rfl
    rw [if_neg hmag, if_neg hmag]
    unfold decodeHeader
    rcases readHeader_cases m s with hh | ⟨j, h1, h2, h3, hh⟩
    · rw [hh]
      dsimp only
      rw [Memory.headerAt_covered, show (m.headerAt s).hcsum = m.byteAt (s + 9) from rfl,
        show dataSizeOf (m.headerAt s).sizeByte = m.sizeAt s from rfl, show hdrLen = 10 from rfl]
      by_cases hcs : rollover (m.slice (s + 5) 4) ≠ m.byteAt (s + 9)
      · rw [if_pos hcs, if_pos hcs]; exact .inl rfl
      rw [if_neg hcs, if_neg hcs]
      by_cases hn : L - s < 10 + m.sizeAt s + 1
      · rw [if_pos hn, if_pos hn]; exact .inl rfl
      rw [if_neg hn, if_neg hn]
      exact decodeData_cases first hn
    · rw [hh]
      exact .inr ⟨j, by omega, by omega, h3, rfl⟩

theorem decodeFrame_ok {m : Memory} {L s : Nat} {first : Bool} {r : DecodeResult} (h : decodeFrame m L s first = .ok r) :
    r = frameVerdict m L s first := by
  rcases decodeFrame_cases m L s first with h' | ⟨j, -, -, -, h'⟩
  · rw [h] at h'; exact Except.ok.inj h'
  · rw [h] at h'; cases h'

theorem decodeFrame_error {m : Memory} {L s : Nat} {first : Bool} {f : Fault} (h : decodeFrame m L s first = .error f) :
    ∃ j, s ≤ j ∧ j < L ∧ m.read j = none ∧ f = .unwrittenCaptureByte j := by
  rcases decodeFrame_cases m L s first with h' | ⟨j, h1, h2, h3, h'⟩
  · rw [h] at h'; cases h'
  · rw [h] at h'; exact ⟨j, h1, h2, h3, Except.error.inj h'⟩

theorem decodeFrame_of_written {m : Memory} {L s : Nat} {first : Bool} (h : m.Written s L) :
    decodeFrame m L s first = .ok (frameVerdict m L s first) := by
  rcases decodeFrame_cases m L s first with h' | ⟨j, h1, h2, h3, -⟩
  · exact h'
  · have := h j h1 h2; rw [h3] at this; cases this

theorem decodeFrame_congr {m m' : Memory} {L s : Nat} {first : Bool} (h : m.AgreeOn m' s L) :
    decodeFrame m L s first = decodeFrame m' L s first := by
  unfold decodeFrame
  by_cases h10 : L - s < hdrLen
  · simp only [if_pos h10]
  simp only [hdrLen] at h10
  have h5 : m.fetchRange s magicLen = m'.fetchRange s magicLen :=
    Memory.fetchRange_congr fun j hj hj' => h j hj (by simp only [magicLen] at hj'; omega)
  have hh : decodeHeader m L s first = decodeHeader m' L s first := by
    have hrh : readHeader m s = readHeader m' s := readHeader_congr fun j hj hj' => h j (by omega) (by omega)
    simp only [decodeHeader, hrh]
    split
    · rfl
    rename_i hd _
    split
    · rfl
    split
    · rfl
    rename_i hn
    simp only [hdrLen] at hn
    have hr : m.fetchRange (s + hdrLen) (dataSizeOf hd.sizeByte) = m'.fetchRange (s + hdrLen) (dataSizeOf hd.sizeByte) :=
      Memory.fetchRange_congr fun j hj hj' => h j (by omega) (by simp only [hdrLen] at hj'; omega)
    have hc : m.fetch (s + hdrLen + dataSizeOf hd.sizeByte) = m'.fetch (s + hdrLen + dataSizeOf hd.sizeByte) :=
      Memory.fetch_congr (h _ (by omega) (by simp only [hdrLen]; omega))
    simp only [decodeData, hr, hc]
  simp only [h5, hh]

/-! ## The entry of a block -/

/-- A candidate that decodes: its frame is valid, and the answer is its entry and the end of its raw range. -/
theorem frameVerdict_block {m : Memory} {L s next : Nat} {first : Bool} {e : Entry}
    (h : frameVerdict m L s first = .block e next) :
    m.ValidFrame L s ∧ next = s + m.rawLenAt L s ∧
    e = entryOf s (m.rawLenAt L s) first (m.headerAt s) (m.byteAt (s + 10 + m.sizeAt s)) := by
  have hraw : rawLength (m.sizeAt s) (L - s) = m.rawLenAt L s := by
    simp only [rawLength, Memory.rawLenAt, hdrLen, trailerLen]; congr 1; omega
  unfold frameVerdict at h
  rw [hraw] at h
  split at h
  · cases h
  split at h
  · cases h
  split at h
  · cases h
  split at h
  · cases h
  split at h
  · cases h
  rename_i h10 hmag hh hn hd
  have h1 := sizeAt_pos m s
  cases h
  refine ⟨⟨by omega, not_not.1 hmag, ?_, ?_⟩, rfl, rfl⟩
  · exact (rollover_eq_iff _ _).1 (not_not.1 hh)
  · exact (rollover_eq_iff _ _).1 (not_not.1 hd)

/-- A valid frame decodes. -/
theorem frameVerdict_of_valid {m : Memory} {L s : Nat} (first : Bool) (h : m.ValidFrame L s) :
    frameVerdict m L s first =
      .block (entryOf s (m.rawLenAt L s) first (m.headerAt s) (m.byteAt (s + 10 + m.sizeAt s))) (s + m.rawLenAt L s) := by
  obtain ⟨hlen, hmag, hh, hd⟩ := h
  have hraw : rawLength (m.sizeAt s) (L - s) = m.rawLenAt L s := by
    simp only [rawLength, Memory.rawLenAt, hdrLen, trailerLen]; congr 1; omega
  unfold frameVerdict
  rw [hraw, if_neg (by omega), if_neg (show ¬ m.slice s 5 ≠ magic from not_not.2 hmag), if_neg (not_not.2 ((rollover_eq_iff _ _).2 hh)), if_neg (by omega),
    if_neg (not_not.2 ((rollover_eq_iff _ _).2 hd))]

theorem ofNat_toNat_lt {w n : Nat} (h : n < 2 ^ w) : (BitVec.ofNat w n).toNat = n := by
  rw [BitVec.toNat_ofNat, Nat.mod_eq_of_lt h]

theorem rawLenAt_bounds {m : Memory} {L s : Nat} (h : m.ValidFrame L s) :
    11 + m.sizeAt s ≤ m.rawLenAt L s ∧ m.rawLenAt L s ≤ 21 + m.sizeAt s ∧ s + m.rawLenAt L s ≤ L := by
  have := h.1
  simp only [Memory.rawLenAt]
  omega

/-- The entry of a valid frame holds every field as R79 gives it. -/
theorem isEntryOf_entryOf {m : Memory} {L s : Nat} (first : Bool) (h : m.ValidFrame L s) (hL : L < 2 ^ 32) :
    m.IsEntryOf L s first
      (entryOf s (m.rawLenAt L s) first (m.headerAt s) (m.byteAt (s + 10 + m.sizeAt s))) := by
  have hb := rawLenAt_bounds h
  have h1 := sizeAt_pos m s
  have h2 := sizeAt_le m s
  refine ⟨ofNat_toNat_lt (by omega), ofNat_toNat_lt (by omega), ?_, rfl, ?_, rfl, rfl, rfl, rfl⟩
  · show (m.byteAt (s + 6) ++ m.byteAt (s + 5)).toNat = _
    have := (m.byteAt (s + 5)).isLt
    rw [BitVec.toNat_append, ← Nat.shiftLeft_add_eq_or_of_lt this, Nat.shiftLeft_eq]
    omega
  · exact ofNat_toNat_lt (show m.sizeAt s < 2 ^ 9 by omega)

theorem entryOf_wf {m : Memory} {L s : Nat} (first : Bool) (h : m.ValidFrame L s) (hL : L < 2 ^ 32) :
    (entryOf s (m.rawLenAt L s) first (m.headerAt s) (m.byteAt (s + 10 + m.sizeAt s))).Wf := by
  have hb := rawLenAt_bounds h
  obtain ⟨h1, h2, -, h4, h5, -⟩ := isEntryOf_entryOf first h hL
  exact ⟨by rw [h5, h4]; rfl, by omega, by omega, by omega⟩

/-! ## DecodeAt -/

/-- Step 1 and the rest: DecodeAt answers by the pilot path, by the magic path, or finds no candidate. -/
theorem decodeAt_ok {m : Memory} {c L : Nat} {r : DecodeResult} (h : decodeAt m c L = .ok r) :
    (∃ p, pilotScan m c L = .ok (some p) ∧ r = frameVerdict m L p true) ∨
    (∃ i, pilotScan m c L = .ok none ∧ magicScan m c L = .ok (some i) ∧ r = frameVerdict m L i false) ∨
    (pilotScan m c L = .ok none ∧ magicScan m c L = .ok none ∧ r = .fail .noMoreBlocks) := by
  unfold decodeAt at h
  split at h
  · cases h
  · rename_i p hp
    exact .inl ⟨p, hp, decodeFrame_ok h⟩
  · rename_i hp
    split at h
    · cases h
    · rename_i i hm
      exact .inr (.inl ⟨i, hp, hm, decodeFrame_ok h⟩)
    · rename_i hm
      cases h
      exact .inr (.inr ⟨hp, hm, rfl⟩)

theorem decodeAt_error {m : Memory} {c L : Nat} {f : Fault} (h : decodeAt m c L = .error f) :
    ∃ j, c ≤ j ∧ j < L ∧ m.read j = none ∧ f = .unwrittenCaptureByte j := by
  unfold decodeAt at h
  split at h
  · rename_i g hg
    cases h
    exact pilotScan_error hg
  · rename_i p hp
    obtain ⟨j, h1, h2, h3⟩ := decodeFrame_error h
    have := pilotScan_bounds hp
    exact ⟨j, by omega, h2, h3⟩
  · split at h
    · rename_i g hg
      cases h
      exact magicScan_error hg
    · rename_i i hm
      obtain ⟨j, h1, h2, h3⟩ := decodeFrame_error h
      have := magicScan_bounds hm
      exact ⟨j, by omega, h2, h3⟩
    · cases h

theorem decodeAt_of_written {m : Memory} {c L : Nat} (h : m.Written c L) : ∃ r, decodeAt m c L = .ok r := by
  cases hr : decodeAt m c L with
  | ok r => exact ⟨r, rfl⟩
  | error f =>
    obtain ⟨j, h1, h2, h3, -⟩ := decodeAt_error hr
    have := h j h1 h2
    rw [h3] at this
    cases this

theorem decodeAt_congr {m m' : Memory} {c L : Nat} (h : m.AgreeOn m' c L) : decodeAt m c L = decodeAt m' c L := by
  unfold decodeAt
  rw [pilotScan_congr h, magicScan_congr h]
  split
  · rfl
  · rename_i p hp
    have := pilotScan_bounds hp
    exact decodeFrame_congr fun j hj hj' => h j (by omega) hj'
  · split
    · rfl
    · rename_i i hm
      have := magicScan_bounds hm
      exact decodeFrame_congr fun j hj hj' => h j (by omega) hj'
    · rfl

/-- A decoded block: the frame of a candidate at or after `c`, valid, with its entry and the end of its raw range. -/
theorem decodeAt_block {m : Memory} {c L next : Nat} {e : Entry} (h : decodeAt m c L = .ok (.block e next)) :
    ∃ s first, c ≤ s ∧ m.ValidFrame L s ∧ next = s + m.rawLenAt L s ∧
      e = entryOf s (m.rawLenAt L s) first (m.headerAt s) (m.byteAt (s + 10 + m.sizeAt s)) := by
  rcases decodeAt_ok h with ⟨p, hp, hv⟩ | ⟨i, -, hm, hv⟩ | ⟨-, -, hv⟩
  · obtain ⟨h1, h2, h3⟩ := frameVerdict_block hv.symm
    have := pilotScan_bounds hp
    exact ⟨p, true, by omega, h1, h2, h3⟩
  · obtain ⟨h1, h2, h3⟩ := frameVerdict_block hv.symm
    have := magicScan_bounds hm
    exact ⟨i, false, by omega, h1, h2, h3⟩
  · cases hv

/-- The cursor's move by a decoded block. -/
theorem decodeAt_block_next {m : Memory} {c L next : Nat} {e : Entry} (h : decodeAt m c L = .ok (.block e next)) :
    c + 12 ≤ next ∧ next ≤ L := by
  obtain ⟨s, _, h1, h2, h3, -⟩ := decodeAt_block h
  have hb := rawLenAt_bounds h2
  have := sizeAt_pos m s
  omega

end Sys2Proof.Machine
end

