-- ==== Sys2Proof/Laws/Driver.lean ====
section
/-! SUPPORT. Sys2Proof/Laws/Driver.lean: the loop of READ_BLOCKS: its induction, packaged once, and that its bound is never
what ends it. -/

namespace Sys2Proof.Machine

open Sys2Proof

theorem State.appendBlock_cursor_toNat {s : State} {e : Entry} {next : Nat}
    (h : decodeAt s.cap s.cursor.toNat s.bufLen.toNat = .ok (.block e next)) :
    (s.appendBlock e next).cursor.toNat = next := by
  have := decodeAt_block_next h
  exact ofNat_toNat_lt (by have := s.bufLen.isLt; omega)

/-- An empty remaining buffer is the end of the stream (R94). -/
theorem decodeAt_empty {m : Memory} {c L : Nat} (h : L ≤ c) : decodeAt m c L = .ok (.fail .noMoreBlocks) := by
  have h0 : L - c = 0 := by omega
  simp only [decodeAt, pilotScan, magicScan, h0, Nat.zero_sub, pilotLoop, magicLoop]

/-- The failures a decode can answer (R79): never `OK` and none of the hardware's own codes. -/
theorem decodeAt_fail {m : Memory} {c L : Nat} {code : ResultCode} (h : decodeAt m c L = .ok (.fail code)) :
    code = .noMoreBlocks ∨ code = .incompleteHeader ∨ code = .invalidHeader ∨ code = .headerCsumMismatch ∨
      code = .blockIncomplete ∨ code = .dataCsumMismatch := by
  have key : ∀ s first, DecodeResult.fail code = frameVerdict m L s first → code = .noMoreBlocks ∨
      code = .incompleteHeader ∨ code = .invalidHeader ∨ code = .headerCsumMismatch ∨ code = .blockIncomplete ∨
      code = .dataCsumMismatch := by
    intro s first hv
    unfold frameVerdict at hv
    repeat' split at hv
    all_goals cases hv <;> simp
  rcases decodeAt_ok h with ⟨p, -, hv⟩ | ⟨i, -, -, hv⟩ | ⟨-, -, hv⟩
  · exact key _ _ hv
  · exact key _ _ hv
  · cases hv; simp

theorem decodeAt_fail_ne_ok {m : Memory} {c L : Nat} {code : ResultCode} (h : decodeAt m c L = .ok (.fail code)) :
    code ≠ .ok := by
  rcases decodeAt_fail h with rfl | rfl | rfl | rfl | rfl | rfl <;> decide

/-- How a pass ends in state `t` (R91): the decode there fails with the code, or answers a block the table has no room
for. -/
def PassEnd (t : State) (code : ResultCode) : Prop :=
  decodeAt t.cap t.cursor.toNat t.bufLen.toNat = .ok (.fail code) ∨
  (code = .tableFull ∧ t.tableFull = true ∧
    ∃ e next, decodeAt t.cap t.cursor.toNat t.bufLen.toNat = .ok (.block e next))

/-- The induction over a pass: what the start meets and every appended block keeps, the end meets; and the pass ends as
R91 says when the bound covers the remaining buffer. -/
theorem readLoop_induct {P : State → Prop} {s t : State} {n : Nat} {code : ResultCode}
    (hn : s.bufLen.toNat - s.cursor.toNat ≤ n)
    (hstep : ∀ u e next, P u → decodeAt u.cap u.cursor.toNat u.bufLen.toNat = .ok (.block e next) →
      u.tableFull = false → P (u.appendBlock e next))
    (hs : P s) (h : readLoop s n = .ok (t, code)) : P t ∧ PassEnd t code := by
  induction n generalizing s with
  | zero =>
    cases h
    exact ⟨hs, .inl (decodeAt_empty (by omega))⟩
  | succ n ih =>
    rw [readLoop] at h
    split at h
    · cases h
    · rename_i c hc
      cases h
      exact ⟨hs, .inl hc⟩
    · rename_i e next hd
      split at h
      · rename_i hf
        cases h
        exact ⟨hs, .inr ⟨rfl, hf, e, next, hd⟩⟩
      · rename_i hf
        refine ih ?_ (hstep s e next hs hd (by simpa using hf)) h
        have := decodeAt_block_next hd
        rw [State.appendBlock_cursor_toNat hd, State.appendBlock_bufLen]
        omega

/-- A pass answers on a written remaining buffer. -/
theorem readLoop_of_written {s : State} {n : Nat} (hw : s.cap.Written s.cursor.toNat s.bufLen.toNat) :
    ∃ r, readLoop s n = .ok r := by
  induction n generalizing s with
  | zero => exact ⟨_, rfl⟩
  | succ n ih =>
    obtain ⟨r, hr⟩ := decodeAt_of_written hw
    rw [readLoop, hr]
    cases r with
    | fail c => exact ⟨_, rfl⟩
    | block e next =>
      dsimp only
      split
      · exact ⟨_, rfl⟩
      · refine ih fun j hj hj' => hw j ?_ hj'
        rw [State.appendBlock_cursor_toNat hr] at hj
        have := decodeAt_block_next hr
        omega

/-- A pass faults only at an unwritten byte of the remaining buffer. -/
theorem readLoop_error {s : State} {n : Nat} {f : Fault} (h : readLoop s n = .error f) :
    ∃ j, s.cursor.toNat ≤ j ∧ j < s.bufLen.toNat ∧ s.cap.read j = none ∧ f = .unwrittenCaptureByte j := by
  induction n generalizing s with
  | zero => cases h
  | succ n ih =>
    rw [readLoop] at h
    split at h
    · rename_i g hg
      cases h
      exact decodeAt_error hg
    · cases h
    · rename_i e next hd
      split at h
      · cases h
      · obtain ⟨j, h1, h2, h3⟩ := ih h
        rw [State.appendBlock_cursor_toNat hd] at h1
        have := decodeAt_block_next hd
        exact ⟨j, by omega, h2, h3⟩

/-- What a pass leaves as it was: everything but the table and `CURSOR`. -/
theorem readLoop_frame {s t : State} {n : Nat} {code : ResultCode} (h : readLoop s n = .ok (t, code)) :
    t = { s with table := t.table, cursor := t.cursor } := by
  induction n generalizing s with
  | zero => cases h; rfl
  | succ n ih =>
    rw [readLoop] at h
    split at h
    · cases h
    · cases h; rfl
    · split at h
      · cases h; rfl
      · exact (ih h).trans rfl

/-- Chains of decodes grow at their end. -/
theorem DecodedFrom.append {m : Memory} {L c d next : Nat} {xs : List Entry} {e : Entry} (h : DecodedFrom m L c xs d)
    (hd : decodeAt m d L = .ok (.block e next)) : DecodedFrom m L c (xs ++ [e]) next := by
  induction xs generalizing c with
  | nil => cases h; exact ⟨next, hd, rfl⟩
  | cons x xs ih =>
    obtain ⟨n, h1, h2⟩ := h
    exact ⟨n, h1, ih h2⟩

/-- A pass from an empty table retains exactly the blocks of the successive decodes from its start, and its `CURSOR` is
behind the last of them (R91). -/
theorem readLoop_decodedFrom {s t : State} {n : Nat} {code : ResultCode} (hn : s.bufLen.toNat - s.cursor.toNat ≤ n)
    (hs : s.table = []) (h : readLoop s n = .ok (t, code)) :
    DecodedFrom s.cap s.bufLen.toNat s.cursor.toNat t.table t.cursor.toNat := by
  refine (readLoop_induct (P := fun u => u.cap = s.cap ∧ u.bufLen = s.bufLen ∧
    DecodedFrom s.cap s.bufLen.toNat s.cursor.toNat u.table u.cursor.toNat) hn ?_ ⟨rfl, rfl, by rw [hs]; rfl⟩ h).1.2.2
  rintro u e next ⟨h1, h2, h3⟩ hd -
  refine ⟨h1, h2, ?_⟩
  rw [State.appendBlock_cursor_toNat hd]
  rw [h1, h2] at hd
  exact h3.append hd

/-- A pass stays within the table (R28, R91). -/
theorem readLoop_table_le {s t : State} {n : Nat} {code : ResultCode} (hn : s.bufLen.toNat - s.cursor.toNat ≤ n)
    (hs : s.table.length ≤ s.params.maxBlocks.toNat) (h : readLoop s n = .ok (t, code)) :
    t.table.length ≤ t.params.maxBlocks.toNat := by
  refine (readLoop_induct (P := fun u => u.table.length ≤ u.params.maxBlocks.toNat) hn ?_ hs h).1
  intro u e next hu hd hf
  have : u.table.length ≠ u.params.maxBlocks.toNat := of_decide_eq_false hf
  rw [State.appendBlock_table, State.appendBlock_params, List.length_append, List.length_singleton]
  omega

/-- A pass never stops with `OK` (R93). -/
theorem PassEnd.ne_ok {t : State} {code : ResultCode} (h : PassEnd t code) : code ≠ .ok := by
  rcases h with h | ⟨rfl, -⟩
  · exact decodeAt_fail_ne_ok h
  · decide

end Sys2Proof.Machine
end

