-- ==== Sys2Proof/Laws/Exec.lean ====
section
/-! SUPPORT. Sys2Proof/Laws/Exec.lean: once for all commands, what a completed command can have changed, and where a
command faults. -/

namespace Sys2Proof.Machine

open Sys2Proof

/-! ## Range checks -/

theorem State.bufFits_iff (s : State) : s.bufFits = true ↔ s.bufLen.toNat ≤ s.params.capSize.toNat := by
  simp [State.bufFits]

theorem State.rangeOK_iff (s : State) : s.rangeOK = true ↔ s.InRange := by
  simp [State.rangeOK, State.bufFits_iff, State.InRange]

theorem State.csumRangeOK_iff (s : State) : s.csumRangeOK = true ↔ s.CsumInRange := by
  simp [State.csumRangeOK, State.bufFits_iff, State.CsumInRange]

theorem State.tableFull_iff (s : State) : s.tableFull = true ↔ s.table.length = s.params.maxBlocks.toNat := by
  simp [State.tableFull]

/-! ## One inversion lemma for each command that looks before it completes -/

theorem exec_csum_next {s t : State} (h : exec .csum s = .next t) :
    (¬ s.CsumInRange ∧ t = s.raise .rangeError) ∨
    (s.CsumInRange ∧ s.cap.Written s.argAddr.toNat (s.argAddr.toNat + s.argLen.toNat) ∧
      t = State.finish { s with csum := rollover (s.cap.slice s.argAddr.toNat s.argLen.toNat) } .ok) := by
  simp only [exec, execCsum] at h
  split at h
  · rename_i hr
    split at h
    · cases h
    · rename_i bs hb
      cases h
      obtain ⟨rfl, hw⟩ := Memory.fetchRange_ok hb
      exact .inr ⟨(State.csumRangeOK_iff s).1 hr, hw, rfl⟩
  · rename_i hr
    cases h
    exact .inl ⟨fun h => hr ((State.csumRangeOK_iff s).2 h), rfl⟩

theorem exec_findPilot_next {s t : State} (h : exec .findPilot s = .next t) :
    (¬ s.InRange ∧ t = s.raise .rangeError) ∨
    (s.InRange ∧ ∃ r, pilotScan s.cap s.cursor.toNat s.bufLen.toNat = .ok r ∧ t = s.scanDone r) := by
  simp only [exec, execFindPilot] at h
  split at h
  · rename_i hr
    split at h
    · cases h
    · rename_i r hp
      cases h
      exact .inr ⟨(State.rangeOK_iff s).1 hr, r, hp, rfl⟩
  · rename_i hr
    cases h
    exact .inl ⟨fun h => hr ((State.rangeOK_iff s).2 h), rfl⟩

theorem exec_seekHeader_next {s t : State} (h : exec .seekHeader s = .next t) :
    (¬ s.InRange ∧ t = s.raise .rangeError) ∨
    (s.InRange ∧ ∃ r, magicScan s.cap s.cursor.toNat s.bufLen.toNat = .ok r ∧ t = s.scanDone r) := by
  simp only [exec, execSeekHeader] at h
  split at h
  · rename_i hr
    split at h
    · cases h
    · rename_i r hp
      cases h
      exact .inr ⟨(State.rangeOK_iff s).1 hr, r, hp, rfl⟩
  · rename_i hr
    cases h
    exact .inl ⟨fun h => hr ((State.rangeOK_iff s).2 h), rfl⟩

theorem exec_decode_next {s t : State} (h : exec .decode s = .next t) :
    (¬ s.InRange ∧ t = s.raise .rangeError) ∨
    (s.InRange ∧ ∃ code, decodeAt s.cap s.cursor.toNat s.bufLen.toNat = .ok (.fail code) ∧ t = s.finish code) ∨
    (s.InRange ∧ ∃ e next, decodeAt s.cap s.cursor.toNat s.bufLen.toNat = .ok (.block e next) ∧
      ((s.tableFull = true ∧ t = s.raise .tableFull) ∨
        (s.tableFull = false ∧ t = (s.appendBlock e next).finish .ok))) := by
  simp only [exec, execDecode] at h
  split at h
  · rename_i hr
    have hr := (State.rangeOK_iff s).1 hr
    split at h
    · cases h
    · rename_i code hd
      cases h
      exact .inr (.inl ⟨hr, code, hd, rfl⟩)
    · rename_i e next hd
      split at h
      · rename_i hf
        cases h
        exact .inr (.inr ⟨hr, e, next, hd, .inl ⟨hf, rfl⟩⟩)
      · rename_i hf
        cases h
        exact .inr (.inr ⟨hr, e, next, hd, .inr ⟨by simpa using hf, rfl⟩⟩)
  · rename_i hr
    cases h
    exact .inl ⟨fun h => hr ((State.rangeOK_iff s).2 h), rfl⟩

theorem exec_readBlocks_next {s t : State} (h : exec .readBlocks s = .next t) :
    (¬ s.InRange ∧ t = s.raise .rangeError) ∨
    (s.InRange ∧ ∃ u code,
      readLoop { s with table := [] } (s.bufLen.toNat - s.cursor.toNat) = .ok (u, code) ∧ t = u.finish code) := by
  simp only [exec, execReadBlocks] at h
  split at h
  · rename_i hr
    split at h
    · cases h
    · rename_i u code hl
      cases h
      exact .inr ⟨(State.rangeOK_iff s).1 hr, u, code, hl, rfl⟩
  · rename_i hr
    cases h
    exact .inl ⟨fun h => hr ((State.rangeOK_iff s).2 h), rfl⟩

/-! ## Completions -/

/-- A completed command: the result registers, the table and `CURSOR` have some values, and the state is completed with
some code and flags. Everything else is as before. -/
def CompletionOf (s t : State) : Prop :=
  ∃ cursor resultIndex csum table code found flags,
    t = State.complete { s with cursor := cursor, resultIndex := resultIndex, csum := csum, table := table }
      code found flags

/-- Whatever command runs, a next state is a completion of the state before (R111, R112). -/
theorem exec_next {i : Instr} {s t : State} (h : exec i s = .next t) : CompletionOf s t := by
  cases i with
  | nop => cases h; exact ⟨_, _, _, _, _, _, _, rfl⟩
  | csum => rcases exec_csum_next h with ⟨-, rfl⟩ | ⟨-, -, rfl⟩ <;> exact ⟨_, _, _, _, _, _, _, rfl⟩
  | findPilot => rcases exec_findPilot_next h with ⟨-, rfl⟩ | ⟨-, r, -, rfl⟩ <;> exact ⟨_, _, _, _, _, _, _, rfl⟩
  | seekHeader => rcases exec_seekHeader_next h with ⟨-, rfl⟩ | ⟨-, r, -, rfl⟩ <;> exact ⟨_, _, _, _, _, _, _, rfl⟩
  | decode =>
    rcases exec_decode_next h with ⟨-, rfl⟩ | ⟨-, c, -, rfl⟩ | ⟨-, e, n, -, ⟨-, rfl⟩ | ⟨-, rfl⟩⟩ <;>
      exact ⟨_, _, _, _, _, _, _, rfl⟩
  | readBlocks =>
    rcases exec_readBlocks_next h with ⟨-, rfl⟩ | ⟨-, u, c, hl, rfl⟩
    · exact ⟨_, _, _, _, _, _, _, rfl⟩
    · rw [readLoop_frame hl]
      exact ⟨_, _, _, _, _, _, _, rfl⟩
  | checkComplete => cases h; exact ⟨_, _, _, _, _, _, _, rfl⟩
  | clearTable => cases h; exact ⟨_, _, _, _, _, _, _, rfl⟩
  | reserved opc => cases h; exact ⟨_, _, _, _, _, _, _, rfl⟩

/-- What a completed command never touches. -/
theorem CompletionOf.untouched {s t : State} (h : CompletionOf s t) : Untouched s t := by
  obtain ⟨_, _, _, _, _, _, _, rfl⟩ := h
  exact ⟨rfl, rfl, rfl, rfl, rfl, rfl, rfl, fun _ => rfl, rfl, rfl⟩

/-- No command is refused by the model. -/
theorem exec_not_refused (i : Instr) (s : State) (r : Refusal) : exec i s ≠ .refused r := by
  intro h
  cases i <;>
    simp only [exec, execNop, execCsum, execFindPilot, execSeekHeader, execDecode, execReadBlocks, execCheckComplete,
      execClearTable, execReserved] at h
  all_goals repeat' split at h
  all_goals cases h

/-- A command faults only at an unwritten capture byte below `BUF_LEN`, with `BUF_LEN ≤ CAP_SIZE` (R38, R126). -/
theorem exec_fault {i : Instr} {s : State} {f : Fault} (h : exec i s = .fault f) :
    ∃ j, j < s.bufLen.toNat ∧ s.bufLen.toNat ≤ s.params.capSize.toNat ∧ s.cap.read j = none ∧
      f = .unwrittenCaptureByte j := by
  cases i with
  | nop => cases h
  | csum =>
    simp only [exec, execCsum] at h
    split at h
    · rename_i hr
      have hr := (State.csumRangeOK_iff s).1 hr
      split at h
      · rename_i g hg
        cases h
        obtain ⟨j, h1, h2, h3, h4⟩ := Memory.fetchRange_error hg
        exact ⟨j, by have := hr.2; omega, hr.1, h3, h4⟩
      · cases h
    · cases h
  | findPilot =>
    simp only [exec, execFindPilot] at h
    split at h
    · rename_i hr
      split at h
      · rename_i g hg
        cases h
        obtain ⟨j, -, h2, h3, h4⟩ := pilotScan_error hg
        exact ⟨j, h2, ((State.rangeOK_iff s).1 hr).1, h3, h4⟩
      · cases h
    · cases h
  | seekHeader =>
    simp only [exec, execSeekHeader] at h
    split at h
    · rename_i hr
      split at h
      · rename_i g hg
        cases h
        obtain ⟨j, -, h2, h3, h4⟩ := magicScan_error hg
        exact ⟨j, h2, ((State.rangeOK_iff s).1 hr).1, h3, h4⟩
      · cases h
    · cases h
  | decode =>
    simp only [exec, execDecode] at h
    split at h
    · rename_i hr
      split at h
      · rename_i g hg
        cases h
        obtain ⟨j, -, h2, h3, h4⟩ := decodeAt_error hg
        exact ⟨j, h2, ((State.rangeOK_iff s).1 hr).1, h3, h4⟩
      · cases h
      · split at h <;> cases h
    · cases h
  | readBlocks =>
    simp only [exec, execReadBlocks] at h
    split at h
    · rename_i hr
      split at h
      · rename_i g hg
        cases h
        obtain ⟨j, -, h2, h3, h4⟩ := readLoop_error hg
        exact ⟨j, h2, ((State.rangeOK_iff s).1 hr).1, h3, h4⟩
      · cases h
    · cases h
  | checkComplete => cases h
  | clearTable => cases h
  | reserved opc => cases h

/-- CHECK_COMPLETE leaves `STATUS[19:16]` at the flags of the table (R98), which the host's messages and its decision to
write then follow (R14, R101). -/
theorem exec_checkComplete_flags {s t : State} (h : exec .checkComplete s = .next t) :
    t.status.flags = compFlags s.table ∧ t.table = s.table ∧ t.outputFile = s.outputFile := by
  cases h
  exact ⟨rfl, rfl, rfl⟩

/-- With no completeness flag set the host writes only when asked (R14, D27). -/
theorem State.hostWrites_of_no_flags {s : State} (h : s.status.flags = CompFlags.none) (asked : Bool) :
    s.hostWrites asked = if asked then some s.outputFile else none := by
  rw [State.hostWrites, h]
  rfl

end Sys2Proof.Machine
end

