-- ==== Sys2Proof/Laws/Host.lean ====
section
/-! SUPPORT. Sys2Proof/Laws/Host.lean: once for all host accesses, what one can have done; and how a step is either an
engine completion, a host access or nothing. -/

namespace Sys2Proof.Machine

open Sys2Proof

/-! ## Bus transactions -/

/-- What a host write can do: nothing, a soft reset, `IE`, W1C, a refusal while busy, an acceptance while idle, or an
operand register or capture byte written while idle. -/
inductive WriteEffect (s : State) : State → Prop where
  | ignored : WriteEffect s s
  | reset : WriteEffect s s.softReset
  | enable (b : Bool) : WriteEffect s { s with ie := b }
  | acknowledge (w : Word) : WriteEffect s (s.writeStatus w)
  | refused : s.status.busy = true → WriteEffect s s.refuseWrite
  | accepted (opc : BitVec 4) : s.status.busy = false → WriteEffect s (s.accept opc)
  | operand (bl cu aa al ti : Word) : s.status.busy = false →
      WriteEffect s { s with bufLen := bl, cursor := cu, argAddr := aa, argLen := al, tblIndex := ti }
  | stored (i : Nat) (b : Byte) : s.status.busy = false → i < s.params.capSize.toNat →
      WriteEffect s { s with cap := s.cap.write i b }

theorem State.writeReg_effect (s : State) (w : Word) (r : RegName) : WriteEffect s (s.writeReg w r) := by
  cases r <;> simp only [State.writeReg]
  case ctrl =>
    unfold State.writeCtrl
    split
    · exact .reset
    · exact .enable _
  case status => exact .acknowledge w
  all_goals first
    | exact .ignored
    | unfold State.writeIdle
      cases hb : s.status.busy
      · first
          | exact .accepted _ hb
          | exact .operand _ _ _ _ _ hb
      · exact .refused hb

theorem State.regWrite_effect (s : State) (bits : Nat) (offset : BitVec 12) (w : Word) :
    WriteEffect s (s.regWrite bits offset w) := by
  unfold State.regWrite
  split
  · split
    · exact .ignored
    · exact s.writeReg_effect w _
  · exact .ignored

theorem State.capWrite_effect (s : State) (i : Nat) (b : Byte) : WriteEffect s (s.capWrite i b) := by
  unfold State.capWrite
  cases hb : s.status.busy
  · simp only [Bool.false_eq_true, if_false]
    split
    · exact .ignored
    · exact .stored i b hb (by omega)
  · exact .refused hb

/-- One bus transaction is a write, or a read that changes only the host's record and the draw counter (R44). -/
theorem State.access_effect (s : State) (a : HostOp) :
    WriteEffect s (s.access a) ∨ ∃ d hst, s.access a = { s with draws := d, host := hst } := by
  cases a with
  | regWrite bits offset w => exact .inl (s.regWrite_effect bits offset w)
  | regRead bits offset => exact .inr ⟨_, _, by rw [State.access, State.drawn_eq]; rfl⟩
  | capWrite i b => exact .inl (s.capWrite_effect i b)
  | capRead i => exact .inr ⟨_, _, rfl⟩

/-- Every line of a host program makes one bus transaction and goes on somewhere (R67, R68). -/
theorem State.hostStep_eq (s : State) (l : HostLine) :
    ∃ a p, s.hostStep l = (State.access { s with delay := s.delay - 1 } a).hostAt p := by
  cases l with
  | op a => exact ⟨a, _, rfl⟩
  | wait => exact ⟨readStatusOp, _, rfl⟩
  | brok target => exact ⟨readStatusOp, _, rfl⟩

/-! ## Steps -/

theorem State.move_engine {s : State} {opc : BitVec 4} (h : s.move = .engine opc) :
    s.pend = some opc ∧ (s.hostLine = none ∨ s.delay = 0) := by
  unfold State.move at h
  split at h
  · cases h
  · cases h
  · rename_i h1 h2
    cases h
    exact ⟨h1, .inl h2⟩
  · rename_i h1 h2
    split at h
    · cases h; exact ⟨h1, .inr ‹_›⟩
    · cases h

theorem State.move_host {s : State} {l : HostLine} (h : s.move = .host l) :
    s.hostLine = some l ∧ (s.pend = none ∨ s.delay ≠ 0) := by
  unfold State.move at h
  split at h
  · cases h
  · rename_i h1 h2
    cases h
    exact ⟨h2, .inl h1⟩
  · cases h
  · rename_i h1 h2
    split at h
    · cases h
    · cases h; exact ⟨h2, .inr ‹_›⟩

/-- A step that goes on is an engine completion, a host access, or nothing at all. -/
theorem step_next {s t : State} (h : step s = .next t) :
    (∃ opc, s.pend = some opc ∧ exec (decodeOpc opc) s = .next t) ∨
    (∃ l, s.hostLine = some l ∧ (s.pend = none ∨ s.delay ≠ 0) ∧ t = s.hostStep l) ∨
    (s.pend = none ∧ s.hostLine = none ∧ t = s) := by
  unfold step at h
  split at h
  · rename_i opc hm
    exact .inl ⟨opc, (State.move_engine hm).1, h⟩
  · rename_i l hm
    cases h
    obtain ⟨h1, h2⟩ := State.move_host hm
    exact .inr (.inl ⟨l, h1, h2, rfl⟩)
  · rename_i hm
    cases h
    unfold State.move at hm
    split at hm
    · rename_i h1 h2
      exact .inr (.inr ⟨h1, h2, rfl⟩)
    · cases hm
    · cases hm
    · split at hm <;> cases hm

/-- A run of one more step begins with that step. -/
theorem run_succ_of_step {M : Host.Core} {k : Nat} {s t : M.State} (h : M.step s = .next t) :
    M.run (k + 1) s = M.run k t := by
  simp only [Host.Core.run, h]

/-- The same of this machine. -/
theorem run_succ_of_next {k : Nat} {s t : State} (h : step s = .next t) :
    Host.Core.run core (k + 1) s = Host.Core.run core k t :=
  run_succ_of_step (M := core) h

end Sys2Proof.Machine
end

