-- ==== Sys2Proof/Laws/PerInstr.lean ====
section
/-! SUPPORT. Sys2Proof/Laws/PerInstr.lean: one statement family about every command as syntax: its row of the opcode table
(R63). -/

namespace Sys2Proof.Laws.TableRow

open Sys2Proof

/-- Only the low four bits of a word are its opcode field (R62). -/
theorem low_bits (w : Word) : w &&& 0x0000000F#32 = (opcOfWord w).setWidth 32 := by
  apply BitVec.eq_of_toNat_eq
  have h : w.toNat &&& 15 = w.toNat % 16 := Nat.and_two_pow_sub_one_eq_mod w.toNat 4
  simp only [BitVec.toNat_and, BitVec.toNat_ofNat, opcOfWord, BitVec.toNat_setWidth, BitVec.extractLsb'_toNat]
  norm_num
  omega

/-- The mask of a row lies inside the opcode field. -/
theorem mask_low (i : Instr) (w : Word) :
    w &&& (opcodeRow i).1 = (opcOfWord w).setWidth 32 &&& (opcodeRow i).1 := by
  have h : (opcodeRow i).1 = 0x0000000F#32 &&& (opcodeRow i).1 := by
    cases i <;> simp only [opcodeRow] <;> decide
  have h2 : ∀ o : BitVec 4, o.setWidth 32 &&& 0x0000000F#32 = o.setWidth 32 := by decide
  rw [h, ← BitVec.and_assoc, ← BitVec.and_assoc, low_bits, h2]

/-- A word that decodes to the command lies in the command's row of the table, and the word the encoder gives a
well-formed command lies in it and has zeros in the ignored bits. -/
def Statement (i : Instr) : Prop :=
  (∀ w : Word, decodeWord w = i → w &&& (opcodeRow i).1 = (opcodeRow i).2) ∧
  (i.wf = true → encode i &&& (opcodeRow i).1 = (opcodeRow i).2 ∧ encode i &&& 0xFFFFFFF0#32 = 0#32)

/-- The first half follows from the sixteen opcodes. -/
theorem decoded {i : Instr} (h : ∀ o : BitVec 4, decodeOpc o = i → o.setWidth 32 &&& (opcodeRow i).1 = (opcodeRow i).2)
    (w : Word) (hw : decodeWord w = i) : w &&& (opcodeRow i).1 = (opcodeRow i).2 := by
  rw [mask_low]; exact h _ hw

theorem nop : Statement .nop := ⟨decoded (by decide), by decide⟩
theorem csum : Statement .csum := ⟨decoded (by decide), by decide⟩
theorem findPilot : Statement .findPilot := ⟨decoded (by decide), by decide⟩
theorem seekHeader : Statement .seekHeader := ⟨decoded (by decide), by decide⟩
theorem decode : Statement .decode := ⟨decoded (by decide), by decide⟩
theorem readBlocks : Statement .readBlocks := ⟨decoded (by decide), by decide⟩
theorem checkComplete : Statement .checkComplete := ⟨decoded (by decide), by decide⟩
theorem clearTable : Statement .clearTable := ⟨decoded (by decide), by decide⟩
theorem reserved (opc : BitVec 4) : Statement (.reserved opc) :=
  ⟨decoded (by revert opc; decide), by revert opc; decide⟩

end Sys2Proof.Laws.TableRow
end

