-- ==== Sys2Proof/Laws/Registers.lean ====
section
/-! SUPPORT. Sys2Proof/Laws/Registers.lean: how an access reaches its register, the range errors of the commands, and facts
that claims cite about checksums, least indices and command chains. -/

namespace Sys2Proof.Machine

open Sys2Proof

/-! ## Register accesses -/

theorem wordAligned_offset (r : RegName) : wordAligned 32 r.offset = true := by cases r <;> decide

theorem regAt_offset (r : RegName) : regAt r.offset = some r := by cases r <;> decide

theorem regAt_reserved {off : BitVec 12} (h : 0x048 ≤ off.toNat) : regAt off = none := by
  unfold regAt
  split <;> first | omega | rfl

/-- A word write at a register's offset is that register's write. -/
theorem State.access_regWrite (s : State) (r : RegName) (w : Word) :
    s.access (.regWrite 32 r.offset w) = s.writeReg w r := by
  simp only [State.access, State.regWrite, wordAligned_offset, regAt_offset, if_true]

/-- A word read at a register's offset is that register's read, idle or busy. -/
theorem State.regReadValue_offset (s : State) (r : RegName) :
    s.regReadValue 32 r.offset =
      if s.status.busy then s.readRegBusy (Config.busyRead s.draws) r else s.readReg r := by
  simp only [State.regReadValue, wordAligned_offset, regAt_offset, if_true]

theorem State.writeIdle_idle {s : State} (h : s.status.busy = false) (act : State) : s.writeIdle act = act := by
  simp [State.writeIdle, h]

theorem State.writeIdle_busy {s : State} (h : s.status.busy = true) (act : State) : s.writeIdle act = s.refuseWrite := by
  simp [State.writeIdle, h]

theorem State.statusSeen_idle {s : State} (h : s.status.busy = false) : s.statusSeen = s.status.pack := by
  unfold State.statusSeen
  rw [State.regReadValue_offset]
  simp [h, State.readReg]

/-- While busy an access is a soft reset, or leaves the pending command, its delay, its operands, the table and the
capture. -/
theorem State.access_busy {s : State} (a : HostOp) (hb : s.status.busy = true) :
    s.access a = s.softReset ∨
    ∃ st ie dr hst, st.busy = true ∧ s.access a = { s with status := st, ie := ie, draws := dr, host := hst } := by
  rcases s.access_effect a with h | ⟨d, hst, h⟩
  · generalize s.access a = t at h ⊢
    cases h with
    | ignored => exact .inr ⟨s.status, s.ie, s.draws, s.host, hb, rfl⟩
    | reset => exact .inl rfl
    | enable b => exact .inr ⟨s.status, b, s.draws, s.host, hb, rfl⟩
    | acknowledge w => exact .inr ⟨s.status.w1c w, s.ie, s.draws, s.host, hb, rfl⟩
    | refused _ => exact .inr ⟨{ s.status with ovr := true }, s.ie, s.draws, s.host, hb, rfl⟩
    | accepted _ h => rw [hb] at h; cases h
    | operand _ _ _ _ _ h => rw [hb] at h; cases h
    | stored _ _ h _ => rw [hb] at h; cases h
  · exact .inr ⟨s.status, s.ie, d, hst, hb, h⟩

/-! ## Packed words -/

/-- A concatenation's value. -/
theorem toNat_append {a b : Nat} (x : BitVec a) (y : BitVec b) : (x ++ y).toNat = x.toNat * 2 ^ b + y.toNat := by
  rw [BitVec.toNat_append, ← Nat.shiftLeft_add_eq_or_of_lt y.isLt, Nat.shiftLeft_eq]

theorem ResultCode.code_eq_zero (r : ResultCode) : r.code = 0#8 ↔ r = .ok := by cases r <;> decide

/-! ## Range errors -/

theorem exec_csum_out {s : State} (h : ¬ s.CsumInRange) : exec .csum s = .next (s.raise .rangeError) := by
  simp only [exec, execCsum]
  rw [if_neg (fun h' => h ((State.csumRangeOK_iff s).1 h'))]

/-- The four commands that start with `RangeOK()` (R107). -/
theorem exec_out {s : State} (h : ¬ s.InRange) :
    exec .findPilot s = .next (s.raise .rangeError) ∧ exec .seekHeader s = .next (s.raise .rangeError) ∧
    exec .decode s = .next (s.raise .rangeError) ∧ exec .readBlocks s = .next (s.raise .rangeError) := by
  have h' : ¬ s.rangeOK = true := fun h' => h ((State.rangeOK_iff s).1 h')
  simp only [exec, execFindPilot, execSeekHeader, execDecode, execReadBlocks, if_neg h', and_self]

/-! ## Checksums, least indices, chains -/

theorem Memory.headerOk_iff (m : Memory) (s : Nat) :
    rollover (m.headerAt s).covered = (m.headerAt s).hcsum ↔ m.HeaderOk s := by
  rw [rollover_eq_iff, Memory.headerAt_covered]; rfl

theorem Memory.dataOk_iff (m : Memory) (s : Nat) :
    rollover (m.slice (s + 10) (m.sizeAt s)) = m.byteAt (s + 10 + m.sizeAt s) ↔ m.DataOk s := by
  rw [rollover_eq_iff]; rfl

theorem Least.unique {P : Nat → Prop} {a b : Nat} (h : Least P a) (h' : Least P b) : a = b :=
  Nat.le_antisymm (h.2 _ h'.1) (h'.2 _ h.1)

theorem DecodeChain.unique {u v w : State} (h : DecodeChain u v) (h' : DecodeChain u w) : v = w := by
  induction h with
  | stop h1 h2 =>
    cases h' with
    | stop h3 h4 => rw [h1] at h3; cases h3; rfl
    | more h3 h4 => rw [h1] at h3; cases h3; exact absurd h4 h2
  | more h1 h2 h3 ih =>
    cases h' with
    | stop h3 h4 => rw [h1] at h3; cases h3; exact absurd h2 h4
    | more h3 h4 h5 => rw [h1] at h3; cases h3; exact ih h5

end Sys2Proof.Machine
end

