-- ==== Sys2Proof/Tests/Slice0.lean ====
section
/-! SUPPORT. Sys2Proof/Tests/Slice0.lean: tests whose expected results are the spec's own (95_test_vectors.md by vector name,
the opcode map of R63 for words), and for every obligation with hypotheses a witness that meets them. -/

namespace Sys2Proof.Tests

open Sys2Proof Sys2Proof.Machine

-- One theorem after the other: each waiting kernel check would hold a thread of its own.
set_option Elab.async false

/-! ## Helpers -/

/-- A capture that holds the bytes from index 0 on. -/
def capOf (bs : List Byte) : Memory := (List.range bs.length).zip bs

/-- An idle block with `MAX_BLOCKS` entries whose capture and `BUF_LEN` are the bytes. -/
def load (bs : List Byte) (maxBlocks : Word := 16#32) : State :=
  { State.resetWith ⟨0x00000400#32, maxBlocks, 0x0, 0x1000⟩ with cap := capOf bs, bufLen := BitVec.ofNat 32 bs.length }

theorem load_cap (bs : List Byte) (n : Word) : (load bs n).cap = capOf bs := rfl

/-- The outcome is a next state with the property. -/
def nextIs (o : Host.Outcome State Fault Refusal) (p : State → Bool) : Bool :=
  match o with
  | .next t => p t
  | .fault _ => false
  | .refused _ => false

theorem next_of_check {o : Host.Outcome State Fault Refusal} {p : State → Bool} (h : nextIs o p = true) :
    ∃ t, o = .next t ∧ p t = true := by
  cases o with
  | next t => exact ⟨t, rfl, h⟩
  | fault f => cases h
  | refused r => cases h

/-- The decode answers a block with the property. -/
def blockIs (r : Except Fault DecodeResult) (p : Entry → Nat → Bool) : Bool :=
  match r with
  | .ok (.block e n) => p e n
  | .ok (.fail _) => false
  | .error _ => false

theorem block_of_check {r : Except Fault DecodeResult} {p : Entry → Nat → Bool} (h : blockIs r p = true) :
    ∃ e n, r = .ok (.block e n) ∧ p e n = true := by
  match r, h with
  | .ok (.block e n), h => exact ⟨e, n, rfl, h⟩

/-- The decode answers this failure. -/
def failIs (r : Except Fault DecodeResult) (c : ResultCode) : Bool :=
  match r with
  | .ok (.fail d) => decide (d = c)
  | .ok (.block _ _) => false
  | .error _ => false

theorem fail_of_check {r : Except Fault DecodeResult} {c : ResultCode} (h : failIs r c = true) : r = .ok (.fail c) := by
  match r, h with
  | .ok (.fail d), h => rw [of_decide_eq_true h]

theorem read_zip_range' (bs : List Byte) (a i : Nat) :
    Memory.read ((List.range' a bs.length).zip bs) (a + i) = bs[i]? := by
  induction bs generalizing a i with
  | nil => rfl
  | cons b bs ih =>
    rw [List.length_cons, List.range'_succ, List.zip_cons_cons, Memory.read]
    cases i with
    | zero => simp
    | succ i =>
      rw [if_neg (by omega), show a + (i + 1) = a + 1 + i by omega]
      simpa using ih (a + 1) i

/-- The capture holds the bytes. -/
theorem read_capOf (bs : List Byte) (i : Nat) : (capOf bs).read i = bs[i]? := by
  have := read_zip_range' bs 0 i
  rwa [← List.range_eq_range', Nat.zero_add] at this

theorem written_capOf {bs : List Byte} {a b : Nat} (h : b ≤ bs.length) : (capOf bs).Written a b := by
  intro i _ hi
  rw [read_capOf, List.getElem?_eq_getElem (by omega)]
  rfl

theorem holds_capOf (bs : List Byte) : (capOf bs).Holds bs := fun i _ => read_capOf bs i

/-- A capture that starts with `k` zeros reads zeros there. -/
theorem zeros_capOf {k : Nat} {bs : List Byte} {j : Nat} (h : j < k) :
    (capOf (List.replicate k 0x00#8 ++ bs)).byteAt j = 0x00#8 := by
  rw [Memory.byteAt, read_capOf, List.getElem?_append_left (by rw [List.length_replicate]; exact h),
    List.getElem?_replicate, if_pos h]
  rfl

/-- The scan answers this. -/
def answers (r : Except Fault (Option Nat)) (x : Option Nat) : Bool :=
  match r with
  | .ok y => decide (y = x)
  | .error _ => false

theorem some_of_check {r : Except Fault (Option Nat)} {x : Option Nat} (h : answers r x = true) : r = .ok x := by
  match r, h with
  | .ok y, h => rw [of_decide_eq_true h]

theorem no_pilot_of_short {m : Memory} {c L : Nat} (h : L < c + 256) : ∀ p, ¬ PilotAt m c L p := by
  intro p hp
  have := hp.1
  have := hp.2.1
  omega

/-- A run of 256 zeros at the start is the first pilot. -/
theorem first_pilot {bs : List Byte} {L : Nat} (hL : 256 ≤ L) :
    Least (PilotAt (capOf (List.replicate 256 0x00#8 ++ bs)) 0 L) 256 := by
  refine ⟨⟨by omega, hL, fun j _ hj => zeros_capOf hj⟩, fun y hy => ?_⟩
  have := hy.1
  omega

/-- A magic at the start is the first magic. -/
theorem first_magic {m : Memory} {L : Nat} (hL : 5 ≤ L)
    (h : m.slice 0 5 = [0x00#8, 0xFF#8, 0xFF#8, 0xFF#8, 0xFF#8]) : Least (MagicAt m 0 L) 0 :=
  ⟨⟨Nat.le_refl 0, by omega, h⟩, fun y _ => Nat.zero_le y⟩

def zeros (n : Nat) : List Byte := List.replicate n 0x00#8

/-- Frame `A` of 95_test_vectors.md. -/
def frameA : List Byte :=
  [0x00#8, 0xFF#8, 0xFF#8, 0xFF#8, 0xFF#8, 0x00#8, 0x40#8, 0x05#8, 0x00#8, 0x45#8,
    0x01#8, 0x02#8, 0x03#8, 0x04#8, 0x05#8, 0x0F#8] ++ zeros 10

/-- Frame `B1`. -/
def frameB1 : List Byte :=
  [0x00#8, 0xFF#8, 0xFF#8, 0xFF#8, 0xFF#8, 0x00#8, 0x30#8, 0x02#8, 0x02#8, 0x34#8, 0xAA#8, 0x55#8, 0xFF#8] ++ zeros 10

/-- Frame `B2`. -/
def frameB2 : List Byte :=
  [0x00#8, 0xFF#8, 0xFF#8, 0xFF#8, 0xFF#8, 0x02#8, 0x30#8, 0x01#8, 0x00#8, 0x33#8, 0x7F#8, 0x7F#8] ++ zeros 10

/-- The entry V3 lists for B1, and the one for B2. -/
def entryB1 : Entry := ⟨0#32, 23#9, 0x3000#16, 2#8, 2#9, 2#8, 0x34#8, 0xFF#8, false⟩
def entryB2 : Entry := ⟨23#32, 22#9, 0x3002#16, 1#8, 1#9, 0#8, 0x33#8, 0x7F#8, false⟩

/-- The entry V1 lists for A behind the pilot. -/
def entryA : Entry := ⟨256#32, 26#9, 0x4000#16, 5#8, 5#9, 0#8, 0x45#8, 0x0F#8, true⟩

/-- V1's capture. -/
def tapeV1 : List Byte := zeros 256 ++ frameA

/-! ## WellFormed, decode and encode -/

theorem test_wellFormed_refuses_unreserved_opcode :
    (Instr.reserved 0x0#4).wf = false ∧ (Instr.reserved 0x7#4).wf = false ∧ (Instr.reserved 0x8#4).wf = true ∧
    (Instr.reserved 0xF#4).wf = true := by decide

/-- Words written out from R63's opcode map: the opcode in bits 3:0, anything above (R62). -/
theorem test_decode_nop : decodeWord 0b00000000000000000000000000000000#32 = .nop := by decide
theorem test_decode_csum : decodeWord 0b00000000000000000000000000000001#32 = .csum := by decide
theorem test_decode_findPilot : decodeWord 0b00000000000000000000000000000010#32 = .findPilot := by decide
theorem test_decode_seekHeader : decodeWord 0b10000000000000000000000000000011#32 = .seekHeader := by decide
theorem test_decode_decode : decodeWord 0b00000000000000000000000000000100#32 = .decode := by decide
theorem test_decode_readBlocks : decodeWord 0b11111111111111111111111111110101#32 = .readBlocks := by decide
theorem test_decode_checkComplete : decodeWord 0b00000000000000000000000000000110#32 = .checkComplete := by decide
theorem test_decode_clearTable : decodeWord 0b00000000000000000000000000010111#32 = .clearTable := by decide
theorem test_decode_reserved : decodeWord 0b00000000000000000000000000001000#32 = .reserved 0x8#4 ∧
    decodeWord 0b00000000000000000000000000001111#32 = .reserved 0xF#4 := by decide

theorem test_decode_rejects_by_name :
    decodeOp (.regRead 32 0x008#12) = .error .notARegisterWrite ∧ decodeOp (.capWrite 8 0#8) = .error .notARegisterWrite ∧
    decodeOp (.capRead 8) = .error .notARegisterWrite ∧ decodeOp (.regWrite 16 0x008#12 0x1#32) = .error .notAWord ∧
    decodeOp (.regWrite 32 0x009#12 0x1#32) = .error .misaligned ∧
    decodeOp (.regWrite 32 0x00C#12 0x1#32) = .error .notCmd := by decide

/-- No word belongs to two rows of the opcode table (R63): some bit both masks look at differs. -/
theorem test_opcode_rows_disjoint :
    [Instr.nop, .csum, .findPilot, .seekHeader, .decode, .readBlocks, .checkComplete, .clearTable, .reserved 0x8#4].Pairwise
      (fun a b => ((opcodeRow a).2 ^^^ (opcodeRow b).2) &&& (opcodeRow a).1 &&& (opcodeRow b).1 ≠ 0#32) := by decide

theorem test_encode : encode .readBlocks = 0x00000005#32 ∧ encode (.reserved 0xC#4) = 0x0000000C#32 := by decide

theorem test_tableWord_too_long : decodeTableWord 40 0x0100000005 = none := by decide

/-! ## Commands -/

/-- Opcode handling of 95_test_vectors.md (R102). -/
theorem test_nop : nextIs (exec .nop ((load []).accept 0x0#4)) (fun t => t.readReg .status == 0x00000002#32) = true := by
  decide +kernel

/-- R103: `ILLEGAL_CMD` is 0x12. -/
theorem test_reserved :
    nextIs (exec (.reserved 0x9#4) ((load []).accept 0x9#4))
      (fun t => t.readReg .status == 0x00001202#32 && t.readReg .cmd == 0x00000009#32) = true := by
  decide +kernel

/-- K11 on frame A alone: the four header bytes sum to 0x45. -/
theorem test_csum :
    nextIs (exec .csum { load frameA with argAddr := 5#32, argLen := 4#32 })
      (fun t => t.readReg .csum == 0x00000045#32 && t.readReg .status == 0x00000002#32) = true := by
  decide +kernel

/-- K15: `a + k` is computed without wrap. -/
theorem test_csum_does_not_wrap :
    nextIs (exec .csum { load frameA with argAddr := 0xFFFFFFFF#32, argLen := 2#32, csum := 0x77#8 })
      (fun t => t.readReg .csum == 0x00000077#32 && t.readReg .status == 0x00001002#32) = true := by
  decide +kernel

/-- V6a. -/
theorem test_findPilot_255_zeros :
    nextIs (exec .findPilot (load (zeros 255 ++ [0x01#8])))
      (fun t => t.readReg .resultIndex == 0#32 && t.readReg .status == 0x00000002#32) = true := by
  decide +kernel

/-- V6b. -/
theorem test_findPilot_256_zeros :
    nextIs (exec .findPilot (load (zeros 256 ++ [0x37#8])))
      (fun t => t.readReg .resultIndex == 256#32 && t.readReg .status == 0x00000006#32) = true := by
  decide +kernel

/-- S-3: a partial match at 0 fails at offset 4. -/
theorem test_seekHeader_partial_match :
    nextIs (exec .seekHeader (load [0x00#8, 0xFF#8, 0xFF#8, 0xFF#8, 0x00#8, 0xFF#8, 0xFF#8, 0xFF#8, 0xFF#8]))
      (fun t => t.readReg .resultIndex == 4#32 && t.readReg .status == 0x00000006#32) = true := by
  decide +kernel

/-- S-1. -/
theorem test_seekHeader_too_short :
    nextIs (exec .seekHeader (load [0x00#8, 0xFF#8, 0xFF#8, 0xFF#8]))
      (fun t => t.readReg .status == 0x00000002#32) = true := by
  decide +kernel

/-- V1, with the packed words it lists. -/
theorem test_decode_behind_pilot :
    nextIs (exec .decode (load tapeV1))
      (fun t => t.table == [entryA] && t.cursor == 282#32 && t.readReg .tblW0 == 0x00000100#32 &&
        t.readReg .tblW1 == 0x05004000#32 && t.readReg .tblW2 == 0x801A0005#32 && t.readReg .tblW3 == 0x00000F45#32) = true := by
  decide +kernel

/-- V10 (a): no trailer at all, the smallest `RAWLEN`. -/
theorem test_decode_no_trailer :
    nextIs (exec .decode (load [0x00#8, 0xFF#8, 0xFF#8, 0xFF#8, 0xFF#8, 0x00#8, 0x20#8, 0x01#8, 0x00#8, 0x21#8, 0x42#8, 0x42#8]))
      (fun t => t.readReg .tblW2 == 0x000C0001#32 && t.readReg .tblW3 == 0x00004221#32 && t.cursor == 12#32) = true := by
  decide +kernel

/-- V3. -/
theorem test_readBlocks_two_blocks :
    nextIs (exec .readBlocks (load (frameB1 ++ frameB2)))
      (fun t => t.table == [entryB1, entryB2] && t.cursor == 45#32 && t.readReg .status == 0x00000102#32) = true := by
  decide +kernel

/-- V19: `MAX_BLOCKS = 1`. -/
theorem test_readBlocks_table_full :
    nextIs (exec .readBlocks (load (frameB1 ++ frameB2) 1#32))
      (fun t => t.table == [entryB1] && t.cursor == 23#32 && t.readReg .status == 0x00001102#32) = true := by
  decide +kernel

/-- V3's and V2's completeness checks. -/
theorem test_checkComplete :
    nextIs (exec .checkComplete { load [] with table := [entryB1, entryB2] })
      (fun t => t.readReg .status == 0x00020002#32) = true ∧
    nextIs (exec .checkComplete (load [])) (fun t => t.readReg .status == 0x000E0002#32) = true := by
  decide +kernel

/-- V1's completeness check: complete. -/
theorem test_checkComplete_complete :
    nextIs (exec .checkComplete { load [] with table := [entryA] }) (fun t => t.readReg .status == 0x00010002#32) = true := by
  decide +kernel

/-- R97. -/
theorem test_clearTable :
    nextIs (exec .clearTable { load [] with table := [entryA], cursor := 9#32 })
      (fun t => t.readReg .blockCount == 0#32 && t.readReg .tblW0 == 0#32 && t.cursor == 9#32) = true := by
  decide +kernel

/-- R126: a byte never written is a fault of the run. -/
theorem test_unwritten_byte_faults :
    exec .csum { load [] with bufLen := 4#32, argLen := 4#32 } = .fault (.unwrittenCaptureByte 0) := by rfl

/-! ## The host port and steps -/

/-- 92_eei_decisions.md, the busy rules: a refused write sets `OVR` and nothing else. -/
theorem test_busy_write_refused :
    let s := ((load frameA).accept 0x4#4).access (.regWrite 32 0x014#12 5#32)
    s.cursor = 0#32 ∧ s.status.ovr = true := by decide +kernel

/-- R42: a halfword write to `BUF_LEN` is ignored. -/
theorem test_narrow_write_ignored :
    ((load frameA).access (.regWrite 16 0x010#12 5#32)).bufLen = 26#32 := by decide +kernel

/-- The step after `withFetchWord` runs the command, from reset. -/
theorem test_fetch_word_runs :
    nextIs (step (State.reset.withFetchWord 32 0x00000018)) (fun t => t.readReg .status == 0x00001202#32) = true := by
  rfl

/-- A host access comes first while `delay` is not used up; the engine moves when it is. -/
theorem test_delay_orders_agents :
    let s := { ((load []).accept 0x0#4).withScript [rd .cmd] with delay := 1 }
    nextIs (step s) (fun t => t.status.busy && t.host.reads == [0#32] && t.delay == 0) = true ∧
    nextIs (step { s with delay := 0 }) (fun t => !t.status.busy && t.host.reads == []) = true := by decide +kernel

/-! ## Witnesses: states and operands that meet an obligation's hypotheses, clause by clause -/

theorem test_witness_EncodedCommandDecodesBack :
    (Instr.reserved 0x8#4).wf = true ∧ (Instr.reserved 0xF#4).wf = true ∧ Instr.clearTable.wf = true ∧
    (load frameA).status.busy = false ∧ (load frameA).hostLine = none := ⟨rfl, rfl, rfl, rfl, rfl⟩

theorem test_witness_OneCommandFormat :
    decodeOp (.regWrite 32 0x008#12 0xFFFFFFF5#32) = .ok .readBlocks ∧ 0xFFFFFFF5#32 ≠ 0x5#32 ∧
    0xFFFFFFF5#32 &&& 0xF#32 = 0x5#32 &&& 0xF#32 := by decide

/-- A pending command with no host line, one with a host line and no delay, and a table word. -/
theorem test_witness_StepRunsPendingCommand :
    let s := (load frameA).accept 0x4#4
    (s.pend = some 0x4#4 ∧ s.hostLine = none) ∧
    (let u := { s.withScript [.wait] with delay := 0 }; u.pend = some 0x4#4 ∧ u.hostLine = some .wait ∧ u.delay = 0) ∧
    decodeTableWord 32 0x5 = some .readBlocks := ⟨⟨rfl, rfl⟩, ⟨rfl, rfl, rfl⟩, rfl⟩

theorem test_witness_EitherAgentMayMoveFirst :
    let s := ((load frameA).accept 0x4#4).withScript [.wait]
    (∀ d, State.pend { s with delay := d } = some 0x4#4 ∧ State.hostLine { s with delay := d } = some .wait) ∧
    State.delay { s with delay := 0 } = 0 ∧ State.delay { s with delay := 1 } ≠ 0 ∧
    (((load []).withScript [.wait]).pend = none ∧ ((load []).withScript [.wait]).hostLine = some .wait) ∧
    ((load []).pend = none ∧ (load []).hostLine = none) := ⟨fun _ => ⟨rfl, rfl⟩, rfl, by decide, ⟨rfl, rfl⟩, rfl, rfl⟩

theorem test_witness_CmdWriteIsAccepted :
    (load frameA).status.busy = false ∧ ((load frameA).accept 0x4#4).status.busy = true := ⟨rfl, rfl⟩

/-- A completion that raises `FOUND`, and one that writes `STATUS[19:16]`. -/
theorem test_witness_EveryCompletionWritesStatus :
    (∃ t, exec .seekHeader (load frameA) = .next t ∧ t.status.found = true) ∧
    (∃ t, exec .checkComplete (load []) = .next t ∧ t.status.flags ≠ CompFlags.none) := by
  refine ⟨?_, ⟨_, rfl, by decide⟩⟩
  obtain ⟨t, h, hp⟩ := next_of_check (o := exec .seekHeader (load frameA)) (p := fun t => t.status.found) (by decide +kernel)
  exact ⟨t, h, hp⟩

/-- A completion that changes `RESULT_INDEX`, one that changes `CSUM`, one that changes `CURSOR` and the table, and one
that changes only the table. -/
theorem test_witness_CommandsWriteOnlyTheirOwnResults :
    (∃ t, exec .seekHeader (load (0x12#8 :: frameA)) = .next t ∧ (t.resultIndex != 0#32) = true) ∧
    (∃ t, exec .csum { load frameA with argLen := 2#32 } = .next t ∧ (t.csum != 0#8) = true) ∧
    (∃ t, exec .readBlocks (load frameA) = .next t ∧ (t.cursor != 0#32 && t.table != []) = true) ∧
    (∃ t, exec .clearTable { load [] with table := [entryA] } = .next t ∧ (t.table != [entryA]) = true) :=
  ⟨next_of_check (p := fun t => t.resultIndex != 0#32) (by decide +kernel),
    next_of_check (p := fun t => t.csum != 0#8) (by decide +kernel),
    next_of_check (p := fun t => t.cursor != 0#32 && t.table != []) (by decide +kernel),
    next_of_check (p := fun t => t.table != [entryA]) (by decide +kernel)⟩

theorem test_witness_CursorOnlyMovesForward :
    ∃ t, exec .decode (load frameA) = .next t ∧ (t.cursor != (load frameA).cursor) = true :=
  next_of_check (p := fun t => t.cursor != (load frameA).cursor) (by decide +kernel)

/-- A capture written up to `BUF_LEN`, and a command that does not complete. -/
theorem test_witness_EveryCommandCompletesOnWrittenCapture :
    (load frameA).cap.Written 0 (load frameA).bufLen.toNat ∧
    ∀ t, exec .csum { load [] with bufLen := 4#32, argLen := 4#32 } ≠ .next t :=
  ⟨written_capOf (by decide), fun t h => by rw [test_unwritten_byte_faults] at h; cases h⟩

theorem test_witness_AcceptedCommandIsEvaluated :
    let s := { ((load frameA).accept 0x4#4).withScript [.wait, .wait] with delay := 2 }
    s.status.busy = true ∧ s.pend = some 0x4#4 := ⟨rfl, rfl⟩

theorem test_witness_ReservedOpcodeCompletesIllegal :
    (load []).status.busy = false ∧ 8 ≤ (0x00000018#32 |>.extractLsb' 0 4).toNat ∧
    8 ≤ (0xFFFFFFFF#32 |>.extractLsb' 0 4).toNat := ⟨rfl, by decide, by decide⟩

/-- An empty table; a table of one complete file; a table whose ends differ. -/
theorem test_witness_CheckCompleteReportsEnds :
    (load []).table = [] ∧
    (let s := { load [] with table := [entryA] };
      s.table[0]? = some entryA ∧ s.table[s.table.length - 1]? = some entryA ∧ entryA.first = true ∧
      entryA.blkNum = 0#8 ∧ s.status.ovr = false) ∧
    (let s := { load [] with table := [entryB1, entryB2] };
      s.table[0]? = some entryB1 ∧ s.table[s.table.length - 1]? = some entryB2) :=
  ⟨rfl, ⟨rfl, rfl, rfl, rfl, rfl⟩, rfl, rfl⟩

/-- Tables that agree on the ends and differ between them. -/
theorem test_witness_CheckCompleteIgnoresTheRest :
    let s := { load [] with table := [entryB1, entryA, entryB2] }
    let u := { load frameA with table := [entryB1, entryB2] }
    s.table = entryB1 :: [entryA, entryB2] ∧ u.table = entryB1 :: [entryB2] ∧
    (entryB1 :: [entryA, entryB2]).getLast? = some entryB2 ∧ (entryB1 :: [entryB2]).getLast? = some entryB2 ∧
    (∃ t, exec .checkComplete s = .next t) ∧ ∃ t, exec .checkComplete u = .next t :=
  ⟨rfl, rfl, rfl, rfl, ⟨_, rfl⟩, _, rfl⟩

theorem test_witness_RolloverDetectsSingleChanges :
    [0x01#8, 0x02#8].Perm [0x02#8, 0x01#8] ∧ 0x01#8 + 0x05#8 = 0x02#8 + 0x04#8 := by decide

/-- In range up to the last byte; beyond it by one; beyond it only because nothing wraps. -/
theorem test_witness_CsumSumsTheRange :
    (let s := { load frameA with argAddr := 21#32, argLen := 5#32 };
      s.CsumInRange ∧ s.cap.Written s.argAddr.toNat (s.argAddr.toNat + s.argLen.toNat)) ∧
    (let s := { load frameA with argAddr := 26#32, argLen := 0#32 };
      s.CsumInRange ∧ s.cap.Written s.argAddr.toNat (s.argAddr.toNat + s.argLen.toNat)) ∧
    ¬ State.CsumInRange { load frameA with argAddr := 21#32, argLen := 6#32 } ∧
    ¬ State.CsumInRange { load frameA with argAddr := 0xFFFFFFFF#32, argLen := 2#32 } := by
  refine ⟨⟨?_, written_capOf (by decide)⟩, ⟨?_, written_capOf (by decide)⟩, ?_, ?_⟩ <;>
    (unfold State.CsumInRange; decide)

/-- A written range whose scan answers, one that is too short, and one with a pilot. -/
theorem test_witness_PilotScanFindsLeastPilot :
    (capOf (zeros 256)).Written 0 256 ∧ pilotScan (capOf (zeros 256)) 0 256 = .ok (some 256) ∧
    255 - 0 < 256 ∧ pilotScan (capOf (zeros 256)) 0 255 = .ok none :=
  ⟨written_capOf (by decide +kernel), some_of_check (by decide +kernel), by decide, some_of_check (by decide +kernel)⟩

theorem test_witness_MagicScanFindsLeastMagic :
    (capOf frameA).Written 0 26 ∧ magicScan (capOf frameA) 0 26 = .ok (some 0) ∧ 4 - 0 < 5 ∧
    magicScan (capOf frameA) 0 4 = .ok none :=
  ⟨written_capOf (by decide), some_of_check (by decide +kernel), by decide, some_of_check (by decide +kernel)⟩

/-- `CURSOR = BUF_LEN` is in range, one more is not, nor is `BUF_LEN` above `CAP_SIZE`. -/
theorem test_witness_RangeCheck :
    State.InRange (load frameA) ∧ (load frameA).cap.Written (load frameA).cursor.toNat (load frameA).bufLen.toNat ∧
    State.InRange { load frameA with cursor := 26#32 } ∧ ¬ State.InRange { load frameA with cursor := 27#32 } ∧
    ¬ State.InRange { load frameA with bufLen := 0x00000401#32 } := by
  refine ⟨?_, written_capOf (by decide), ?_, ?_, ?_⟩ <;> (unfold State.InRange; decide)

theorem test_witness_FindPilotReportsFirstPilot :
    (State.InRange (load (zeros 256)) ∧ (load (zeros 256)).cap.Written 0 256) ∧
    ¬ State.InRange { load (zeros 256) with cursor := 257#32 } := by
  refine ⟨⟨?_, by rw [load_cap]; exact written_capOf (by decide +kernel)⟩, ?_⟩ <;> (unfold State.InRange; decide +kernel)

theorem test_witness_SeekHeaderReportsFirstMagic :
    (State.InRange (load frameA) ∧ (load frameA).cap.Written (load frameA).cursor.toNat (load frameA).bufLen.toNat) ∧
    ¬ State.InRange { load frameA with cursor := 27#32 } :=
  ⟨⟨test_witness_RangeCheck.1, test_witness_RangeCheck.2.1⟩, test_witness_RangeCheck.2.2.2.1⟩

/-- V1: a first pilot. Frame A: no pilot, a first magic. Four bytes: neither. -/
theorem test_witness_DecodeSelectsPilotBeforeMagic :
    ((capOf tapeV1).Written 0 282 ∧ Least (PilotAt (capOf tapeV1) 0 282) 256) ∧
    ((capOf frameA).Written 0 26 ∧ (∀ p, ¬ PilotAt (capOf frameA) 0 26 p) ∧ Least (MagicAt (capOf frameA) 0 26) 0) ∧
    ((capOf frameA).Written 0 4 ∧ (∀ p, ¬ PilotAt (capOf frameA) 0 4 p) ∧ ∀ i, ¬ MagicAt (capOf frameA) 0 4 i) := by
  refine ⟨⟨written_capOf (by decide +kernel), first_pilot (by decide)⟩,
    ⟨written_capOf (by decide), no_pilot_of_short (by decide), first_magic (by decide) (by decide)⟩,
    written_capOf (by decide), no_pilot_of_short (by decide), fun i hi => ?_⟩
  have := hi.2.1
  omega

/-- Frame A is valid at 0 in its own capture. -/
theorem frameA_valid : (capOf frameA).ValidFrame 26 0 := by
  refine ⟨by decide, by decide, ?_, ?_⟩
  · unfold Memory.HeaderOk; decide
  · unfold Memory.DataOk; decide

/-- Each premise in turn: 9 bytes (V4), ten bytes that are no magic, a bad header checksum (V9), ten good bytes and no
data (V5), one byte short of the data checksum, a bad data checksum, and a valid frame. -/
theorem test_witness_FirstFailingStepDecides :
    (9 - 0 < 10 ∧ 10 ≤ 10 - 0 ∧ (capOf (zeros 10)).slice 0 5 ≠ [0x00#8, 0xFF#8, 0xFF#8, 0xFF#8, 0xFF#8]) ∧
    (let m := capOf (frameA.set 9 0x44#8);
      m.Written 0 26 ∧ 10 ≤ 26 - 0 ∧ m.slice 0 5 = [0x00#8, 0xFF#8, 0xFF#8, 0xFF#8, 0xFF#8] ∧ ¬ m.HeaderOk 0) ∧
    (let m := capOf frameA;
      10 ≤ 10 - 0 ∧ m.HeaderOk 0 ∧ 10 - 0 < 10 + m.sizeAt 0 + 1 ∧ 15 - 0 < 10 + m.sizeAt 0 + 1) ∧
    (let m := capOf (frameA.set 15 0x10#8);
      m.Written 0 16 ∧ 10 + m.sizeAt 0 + 1 ≤ 16 - 0 ∧ m.HeaderOk 0 ∧ ¬ m.DataOk 0) ∧
    ((capOf frameA).Written 0 26 ∧ (capOf frameA).ValidFrame 26 0) := by
  refine ⟨by decide, ⟨written_capOf (by decide), by decide, by decide, ?_⟩, ⟨by decide, ?_, by decide, by decide⟩,
    ⟨written_capOf (by decide), by decide, ?_, ?_⟩, written_capOf (by decide), frameA_valid⟩
  · unfold Memory.HeaderOk; decide
  · unfold Memory.HeaderOk; decide
  · unfold Memory.HeaderOk; decide
  · unfold Memory.DataOk; decide

theorem test_witness_DecodeStaysInsideBuffer :
    (26 < 2 ^ 32 ∧ ∃ e n, decodeAt (capOf frameA) 0 26 = .ok (.block e n) ∧ decide (n = 26) = true) ∧
    (capOf frameA).AgreeOn (capOf (frameA ++ [0x99#8])) 0 26 := by
  refine ⟨⟨by decide, block_of_check (p := fun _ n => decide (n = 26)) (by decide +kernel)⟩, ?_⟩
  intro i _ hi
  have h : (List.range 26).all (fun i => decide ((capOf frameA).read i = (capOf (frameA ++ [0x99#8])).read i)) = true := by
    decide
  exact of_decide_eq_true (List.all_eq_true.1 h i (List.mem_range.2 hi))

theorem test_witness_DecodedBlockIsSelfConsistent :
    26 < 2 ^ 32 ∧ ∃ e n, decodeAt (capOf frameA) 0 26 = .ok (.block e n) ∧ decide (e.dcsum = 0x0F#8) = true :=
  ⟨by decide, block_of_check (p := fun e _ => decide (e.dcsum = 0x0F#8)) (by decide +kernel)⟩

/-- A block with room, a block without, a failure, and out of range. -/
theorem test_witness_DecodeAppendsOrReports :
    (State.InRange (load frameA) ∧
      ∃ e n, decodeAt (load frameA).cap 0 26 = .ok (.block e n) ∧ decide (e.blkNum = 0#8) = true) ∧
    (load frameA).table.length ≠ (load frameA).params.maxBlocks.toNat ∧
    (let s := { load frameA 1#32 with table := [entryB1] }; s.table.length = s.params.maxBlocks.toNat) ∧
    (State.InRange (load (frameA.take 9)) ∧ decodeAt (load (frameA.take 9)).cap 0 9 = .ok (.fail .incompleteHeader)) ∧
    ¬ State.InRange { load frameA with cursor := 27#32 } := by
  refine ⟨⟨test_witness_RangeCheck.1, block_of_check (p := fun e _ => decide (e.blkNum = 0#8)) (by decide +kernel)⟩,
    by decide, rfl, ⟨?_, fail_of_check (by decide +kernel)⟩, test_witness_RangeCheck.2.2.2.1⟩
  unfold State.InRange; decide

theorem test_witness_DecodeTakesFirstFrame :
    let s := load frameA
    s.InRange ∧ s.cap.Written s.cursor.toNat s.bufLen.toNat ∧ s.table.length < s.params.maxBlocks.toNat ∧
    (∀ p, ¬ PilotAt s.cap s.cursor.toNat s.bufLen.toNat p) ∧ Least (MagicAt s.cap s.cursor.toNat s.bufLen.toNat) 0 ∧
    s.cap.ValidFrame s.bufLen.toNat 0 :=
  ⟨test_witness_RangeCheck.1, test_witness_RangeCheck.2.1, by decide, no_pilot_of_short (by decide),
    first_magic (by decide) (by decide), frameA_valid⟩

/-- The hypotheses of the pilot rule for `k` zeros from `d` on. -/
def pilotCase (s : State) (d k : Nat) : Prop :=
  let c := s.cursor.toNat
  let L := s.bufLen.toNat
  s.InRange ∧ s.cap.Written c L ∧ c ≤ d ∧ (d = c ∨ s.cap.byteAt (d - 1) ≠ 0x00#8) ∧
  (∀ p, p ≤ d → ¬ PilotAt s.cap c L p) ∧ (∀ j, d ≤ j → j < d + k → s.cap.byteAt j = 0x00#8) ∧
  s.cap.slice (d + k) 5 = [0x00#8, 0xFF#8, 0xFF#8, 0xFF#8, 0xFF#8] ∧ d + k + 5 ≤ L ∧ d + 266 ≤ L

/-- What `pre`, `k` zeros and frame A have to meet for it. -/
theorem pilotCase_of (pre : List Byte) {k : Nat} (hk : 255 ≤ k) (hp : pre.length ≤ 1) (hk' : k ≤ 257)
    (hd : pre = [] ∨ (capOf (pre ++ zeros k ++ frameA)).byteAt (pre.length - 1) ≠ 0x00#8)
    (hz : (List.range k).all
      (fun j => decide ((capOf (pre ++ zeros k ++ frameA)).byteAt (pre.length + j) = 0x00#8)) = true)
    (hm : (capOf (pre ++ zeros k ++ frameA)).slice (pre.length + k) 5 =
      [0x00#8, 0xFF#8, 0xFF#8, 0xFF#8, 0xFF#8]) : pilotCase (load (pre ++ zeros k ++ frameA)) pre.length k := by
  have hlen : (pre ++ zeros k ++ frameA).length = pre.length + k + 26 := by
    rw [List.length_append, List.length_append, zeros, List.length_replicate]
    rfl
  have hs : (load (pre ++ zeros k ++ frameA)).bufLen.toNat = pre.length + k + 26 := by
    show (BitVec.ofNat 32 (pre ++ zeros k ++ frameA).length).toNat = _
    rw [hlen, BitVec.toNat_ofNat, Nat.mod_eq_of_lt (by omega)]
  have hc : (load (pre ++ zeros k ++ frameA)).cursor.toNat = 0 := rfl
  refine ⟨⟨?_, ?_⟩, ?_, ?_, ?_, fun p hpd hpa => ?_, fun j hj hj' => ?_, hm, ?_, ?_⟩
  · rw [hs]
    show pre.length + k + 26 ≤ 1024
    omega
  · omega
  · exact written_capOf (by omega)
  · omega
  · exact hd.imp (fun h => by rw [hc, h]; rfl) id
  · have := hpa.1
    omega
  · have := of_decide_eq_true (List.all_eq_true.1 hz (j - pre.length) (List.mem_range.2 (by omega)))
    rwa [show pre.length + (j - pre.length) = j by omega] at this
  · omega
  · omega

/-- V11, V1 and V12: pilots of 255, 256 and 257 zeros at `CURSOR`, and each behind a byte 0x55; at 256 the frame is valid
and the table has room. -/
theorem test_witness_PilotMustBeExactly256 :
    (∀ pre ∈ [[], [0x55#8]], ∀ k ∈ [255, 256, 257], pilotCase (load (pre ++ zeros k ++ frameA)) pre.length k) ∧
    (load (zeros 256 ++ frameA)).cap.ValidFrame 282 256 ∧ (load (zeros 256 ++ frameA)).table.length < 16 := by
  refine ⟨fun pre hp k hk => ?_, ?_, by decide⟩
  · simp only [List.mem_cons, List.not_mem_nil, or_false] at hp hk
    rcases hp with rfl | rfl <;> rcases hk with rfl | rfl | rfl <;>
      exact pilotCase_of _ (by decide) (by decide) (by decide) (by decide +kernel) (by decide +kernel) (by decide +kernel)
  refine ⟨by decide +kernel, by decide +kernel, ?_, ?_⟩
  · unfold Memory.HeaderOk; decide +kernel
  · unfold Memory.DataOk; decide +kernel

/-- V14's capture: frame B1, a byte 0x55 at 23, a pilot, frame B2 at 280. -/
def tapeV14 : List Byte := frameB1 ++ [0x55#8] ++ zeros 256 ++ frameB2

/-- V14: the first pilot ends at 280, and the frame there is decoded although B1 is valid at 0. -/
theorem test_witness_LaterPilotSkipsEarlierFrames :
    Least (PilotAt (capOf tapeV14) 0 302) 280 ∧
    ∃ e n, decodeAt (capOf tapeV14) 0 302 = .ok (.block e n) ∧ decide (e = { entryB2 with start := 280#32, first := true }) = true := by
  refine ⟨⟨⟨by omega, by omega, fun j hj hj' => ?_⟩, fun y hy => ?_⟩,
    block_of_check (p := fun e _ => decide (e = { entryB2 with start := 280#32, first := true })) (by decide +kernel)⟩
  · have h : (List.range 256).all (fun i => decide ((capOf tapeV14).byteAt (24 + i) = 0x00#8)) = true := by decide +kernel
    have := of_decide_eq_true (List.all_eq_true.1 h (j - 24) (List.mem_range.2 (by omega)))
    rwa [show 24 + (j - 24) = j by omega] at this
  · by_contra hlt
    have h1 := hy.1
    have h2 := hy.2.2 23 (by omega) (by omega)
    revert h2
    decide +kernel

theorem test_witness_FailedDecodeRepeats :
    ∃ t, exec .decode (load (frameA.take 9)) = .next t ∧ (decide (t.status.result ≠ .ok)) = true :=
  next_of_check (p := fun t => decide (t.status.result ≠ .ok)) (by decide +kernel)

theorem test_witness_ReadBlocksStopsAtFirstFailure :
    (State.InRange (load frameA) ∧ (load frameA).cap.Written (load frameA).cursor.toNat (load frameA).bufLen.toNat) ∧
    ¬ State.InRange { load frameA with cursor := 27#32 } :=
  test_witness_SeekHeaderReportsFirstMagic

/-- A pass that completes, with the cleared table beside it, a chain of commands that ends, and a range error. -/
theorem test_witness_ReadBlocksIsClearThenDecodes :
    (State.InRange (load (frameA.take 9)) ∧ ∃ u v t, exec .clearTable (load (frameA.take 9)) = .next u ∧ DecodeChain u v ∧
      exec .readBlocks (load (frameA.take 9)) = .next t) ∧
    ¬ State.InRange { load frameA with cursor := 27#32 } := by
  refine ⟨⟨?_, ?_⟩, test_witness_RangeCheck.2.2.2.1⟩
  · unfold State.InRange; decide
  · obtain ⟨v, hv, hr⟩ := next_of_check (o := exec .decode (State.finish { load (frameA.take 9) with table := [] } .ok))
      (p := fun t => decide (t.status.result ≠ .ok)) (by decide +kernel)
    obtain ⟨t, ht, -⟩ := next_of_check (o := exec .readBlocks (load (frameA.take 9))) (p := fun _ => true) (by decide +kernel)
    exact ⟨_, v, t, rfl, .stop hv (of_decide_eq_true hr), ht⟩

/-- A pass in range that appends two blocks: it meets the hypotheses of ReadBlocksIsBounded, ReadBlocksEntriesInOrder,
LargeTableNeverOverflows and ReadBlocksIsIdempotent. -/
theorem test_witness_ReadBlocksPass :
    let s := load (frameB1 ++ frameB2)
    s.InRange ∧ s.bufLen.toNat / 12 ≤ s.params.maxBlocks.toNat ∧
    ∃ t, exec .readBlocks s = .next t ∧
      (t.table[0]? == some entryB1 && t.table[1]? == some entryB2 && t.table.contains entryB2) = true := by
  refine ⟨?_, by decide, next_of_check
    (p := fun t => t.table[0]? == some entryB1 && t.table[1]? == some entryB2 && t.table.contains entryB2)
    (by decide +kernel)⟩
  unfold State.InRange; decide

/-- The blocks of V3, and of V1. -/
def blockB1 : TapeBlock := ⟨0x00#8, 0x30#8, 0x02#8, [0xAA#8, 0x55#8]⟩
def blockB2 : TapeBlock := ⟨0x02#8, 0x30#8, 0x00#8, [0x7F#8]⟩
def blockA : TapeBlock := ⟨0x00#8, 0x40#8, 0x00#8, [0x01#8, 0x02#8, 0x03#8, 0x04#8, 0x05#8]⟩

/-- The synthetic frames are those of 95_test_vectors.md. -/
theorem test_synthetic_frames :
    blockA.frame = frameA ∧ blockB1.frame = frameB1 ∧ blockB2.frame = frameB2 := by decide +kernel

/-- V3 as a tape without a pilot, with room for both blocks and with room for one; V1 as a tape with the pilot. -/
theorem test_witness_SyntheticTapeReadsBack :
    (∀ b ∈ [blockB1, blockB2, blockA], b.Wf) ∧
    (∀ n ∈ [1#32, 16#32], let s := load (frameB1 ++ frameB2) n;
      s.cursor = 0#32 ∧ s.bufLen.toNat = (tapeBytes false [blockB1, blockB2]).length ∧
      s.bufLen.toNat ≤ s.params.capSize.toNat ∧ s.cap.Holds (tapeBytes false [blockB1, blockB2]) ∧
      ∀ p, ¬ PilotAt s.cap 0 s.bufLen.toNat p) ∧
    (let s := load tapeV1;
      s.cursor = 0#32 ∧ s.bufLen.toNat = (tapeBytes true [blockA]).length ∧
      s.bufLen.toNat ≤ s.params.capSize.toNat ∧ s.cap.Holds (tapeBytes true [blockA]) ∧
      ∀ p, ¬ PilotAt s.cap 257 s.bufLen.toNat p) := by
  refine ⟨?_, ?_, rfl, by decide +kernel, by decide +kernel, ?_, no_pilot_of_short (by decide +kernel)⟩
  rotate_right
  · rw [load_cap, show tapeBytes true [blockA] = tapeV1 by decide +kernel]
    exact holds_capOf tapeV1
  · intro b hb
    simp only [List.mem_cons, List.not_mem_nil, or_false] at hb
    rcases hb with rfl | rfl | rfl <;> (unfold TapeBlock.Wf; decide)
  · intro n hn
    simp only [List.mem_cons, List.not_mem_nil, or_false] at hn
    rcases hn with rfl | rfl <;>
      exact ⟨rfl, by decide +kernel, by decide +kernel, holds_capOf _, no_pilot_of_short (by decide +kernel)⟩

theorem test_witness_IdleHostAccesses :
    (load frameA).status.busy = false ∧ (0x00000003#32 : Word).getLsbD 1 = true ∧ (0x00000001#32 : Word).getLsbD 1 = false ∧
    0x048 ≤ (0x048#12 : BitVec 12).toNat ∧ 0x048 ≤ (0xFFF#12 : BitVec 12).toNat := ⟨rfl, by decide⟩

theorem test_witness_BusyHostWrites :
    ((load frameA).accept 0x4#4).status.busy = true ∧ ((load frameA).accept 0x4#4).status.done = false := ⟨rfl, rfl⟩

theorem test_witness_OddRegisterAccessesDoNothing :
    (8 ≠ 32 ∨ (0x010#12 : BitVec 12).toNat % 4 ≠ 0) ∧ (32 ≠ 32 ∨ (0x011#12 : BitVec 12).toNat % 4 ≠ 0) ∧
    0x048 ≤ (0x048#12 : BitVec 12).toNat := by decide

theorem test_witness_ReadsHaveNoSideEffect :
    (∃ bits off, HostOp.regRead 8 0x010#12 = .regRead bits off) ∧ ∃ i, HostOp.capRead 5 = .capRead i :=
  ⟨⟨_, _, rfl⟩, _, rfl⟩

/-- `SRST` with and without the `IE` bit. -/
theorem test_witness_SoftResetKeepsOnlyTheCapture :
    (0x00000002#32 : Word).getLsbD 1 = true ∧ (0x00000003#32 : Word).getLsbD 1 = true := by decide

theorem test_witness_IrqFollowsDoneAndEnable :
    ((load []).finish .ok).status.done = true ∧ ((load []).finish .ok).status.busy = false := ⟨rfl, rfl⟩

/-- The last entry of a table of two, and the first index beyond it. -/
theorem test_witness_TableWindowShowsPackedEntry :
    let s := { load [] with table := [entryB1, entryB2] }
    (s.table[(1#32).toNat]? = some entryB2) ∧ s.table.length ≤ (2#32).toNat := ⟨rfl, by decide⟩

/-- The last index of the memory and the first beyond it, idle and busy, and a byte that was stored. -/
theorem test_witness_CaptureReadsBackWhatWasWritten :
    (load frameA).status.busy = false ∧ 0x3FF < (load frameA).params.capSize.toNat ∧
    (load frameA).params.capSize.toNat ≤ 0x400 ∧ (load frameA).cap.wf ∧
    ((load frameA).accept 0x4#4).status.busy = true ∧ (load frameA).cap.read 25 = some 0x00#8 :=
  ⟨rfl, by decide, by decide, by decide, rfl, by decide⟩

theorem test_witness_PendingCommandSeesFixedOperands : ((load frameA).accept 0x4#4).status.busy = true := rfl

/-- Captures that agree below `BUF_LEN` and differ beyond it, with a completion and with a fault. -/
theorem test_witness_BytesBeyondBufferDoNotMatter :
    (load frameA).cap.AgreeOn (capOf (frameA ++ [0x99#8])) 0 (load frameA).bufLen.toNat ∧
    (∃ t, exec .decode (load frameA) = .next t ∧ true = true) ∧
    exec .csum { load [] with bufLen := 4#32, argLen := 4#32 } = .fault (.unwrittenCaptureByte 0) :=
  ⟨test_witness_DecodeStaysInsideBuffer.2, next_of_check (p := fun _ => true) (by decide +kernel), test_unwritten_byte_faults⟩

theorem test_witness_WaitWithoutCommandNeverEnds :
    let s := (load []).withScript [.wait]
    s.hostLine = some .wait ∧ s.pend = none ∧ s.status.busy = false ∧ s.status.done = false := ⟨rfl, rfl, rfl, rfl⟩

/-- After a completion with `OK` and after one with another result. -/
theorem test_witness_WaitAndBranchAfterCompletion :
    (let s := ((load []).finish .ok).withScript [.wait];
      s.pend = none ∧ s.status.busy = false ∧ s.hostLine = some .wait ∧ s.status.done = true) ∧
    (let s := ((load []).finish .ok).withScript [.brok 0]; s.hostLine = some (.brok 0) ∧ s.status.result = .ok) ∧
    (let s := ((load []).finish .noMoreBlocks).withScript [.brok 0]; s.hostLine = some (.brok 0) ∧ s.status.result ≠ .ok) :=
  ⟨⟨rfl, rfl, rfl, rfl⟩, ⟨rfl, rfl⟩, rfl, by decide⟩

/-- Windows that touch, in either order. -/
theorem test_witness_HostAddressReachesItsSpace :
    (let p : Params := ⟨16#32, 1#32, 0, 4096⟩; p.regBase + 4096 ≤ p.capBase) ∧
    (let p : Params := ⟨16#32, 1#32, 16, 0⟩; p.capBase + p.capSize.toNat ≤ p.regBase) := by decide

/-- R15 over V1's table after CHECK_COMPLETE: the block's line, the total and the four messages of R101; and over no
block. -/
theorem test_report :
    nextIs (exec .checkComplete { load [] with table := [entryA] }) (fun t =>
      t.report.blocks == [⟨0x4000#16, 0x00#8, 5, 26, 0x0F#8⟩] && t.report.total == 1 && t.report.allAccounted &&
        !t.report.missingBegin && !t.report.missingEnd && !t.report.noData) = true ∧
    nextIs (exec .checkComplete (load [])) (fun t =>
      !t.report.allAccounted && t.report.missingBegin && t.report.missingEnd && t.report.noData) = true := ⟨rfl, rfl⟩

/-- D27 on V1: after READ_BLOCKS `COMPLETE` is 0 and the host writes only when asked; after CHECK_COMPLETE it writes. -/
theorem test_host_writes :
    nextIs (exec .readBlocks (load tapeV1)) (fun t =>
      (t.hostWrites false).isNone && (t.hostWrites true).isSome &&
        nextIs (exec .checkComplete t) (fun u => (u.hostWrites false).isSome)) = true := by decide +kernel

/-- A retained block with `FIRST`, and one without; the last block of each table. -/
theorem test_witness_HostFileFollowsFirstBlock :
    (let s := { load tapeV1 with table := [entryA] };
      ∀ x ∈ s.table, x.start.toNat + x.rawLen.toNat ≤ s.params.capSize.toNat ∧
        s.cap.Written x.start.toNat (x.start.toNat + x.rawLen.toNat)) ∧
    (let s := { load (frameB1 ++ frameB2) with table := [entryB1, entryB2] };
      ∀ x ∈ s.table, x.start.toNat + x.rawLen.toNat ≤ s.params.capSize.toNat ∧
        s.cap.Written x.start.toNat (x.start.toNat + x.rawLen.toNat)) ∧
    entryA.first = true ∧ entryB1.first = false ∧ [entryA].getLast? = some entryA ∧
    [entryB1, entryB2].getLast? = some entryB2 ∧
    (∃ t, exec .checkComplete { load tapeV1 with table := [entryA] } = .next t) ∧
    ∃ t, exec .clearTable (load []) = .next t := by
  refine ⟨fun x hx => ?_, fun x hx => ?_, rfl, rfl, rfl, rfl, ⟨_, rfl⟩, _, rfl⟩
  · obtain rfl := List.mem_singleton.1 hx
    exact ⟨by decide, by rw [load_cap]; exact written_capOf (by decide +kernel)⟩
  · simp only [List.mem_cons, List.not_mem_nil, or_false] at hx
    rcases hx with rfl | rfl <;> exact ⟨by decide, by rw [load_cap]; exact written_capOf (by decide +kernel)⟩

/-- A pending command in a state that meets the invariant. -/
theorem test_witness_EveryStepKeepsTheInvariant :
    State.Inv ((load frameA).accept 0x4#4) ∧
    ∃ t, step { (load frameA).accept 0x4#4 with delay := 0 } = .next t ∧ (t.table.length == 1) = true := by
  refine ⟨⟨by decide, by decide, by decide, rfl, fun _ => rfl, by decide, ?_, ?_⟩, ?_⟩
  · intro e he; cases he
  · intro h; cases h
  · exact next_of_check (p := fun t => t.table.length == 1) (by decide +kernel)

theorem test_witness_ResetMeetsTheInvariant : (⟨1#32, 1#32, 0, 0⟩ : Params).wf ∧ (⟨0xFFFFFFFF#32, 16#32, 0, 0⟩ : Params).wf := by
  decide

/-- A step of each kind, from states with `BUSY = 1 ⇔ PEND ≠ nothing`. -/
theorem test_witness_BusyExactlyWhenPending :
    (let s := (load []).withScript [cmdLine .nop];
      s.status.busy = s.pend.isSome ∧ ∃ t, step s = .next t ∧ (t.status.busy && t.pend.isSome) = true) ∧
    (let s := (load []).accept 0x0#4;
      s.status.busy = s.pend.isSome ∧ ∃ t, step s = .next t ∧ (!t.status.busy && t.pend.isNone) = true) :=
  ⟨⟨rfl, next_of_check (p := fun t => t.status.busy && t.pend.isSome) (by decide +kernel)⟩,
    rfl, next_of_check (p := fun t => !t.status.busy && t.pend.isNone) (by decide +kernel)⟩

theorem test_witness_ConstantRegistersNeverChange : ∃ t, step (load []) = .next t := ⟨_, rfl⟩

end Sys2Proof.Tests
end

section
/-! PROOFS. The invariant holds at reset and every step keeps it (O57, O58); a pass over a large enough table never
overflows it (O37); the host's file (O56). -/

namespace Sys2Proof.Machine

open Sys2Proof

/-! ## The table's part of the invariant -/

/-- The clauses of the invariant that speak of the table: it has room for its entries, and each is within its bounds. -/
def State.TableInv (s : State) : Prop :=
  s.table.length ≤ s.params.maxBlocks.toNat ∧ ∀ e ∈ s.table, e.Wf

theorem State.Inv.tableInv {s : State} (h : s.Inv) : s.TableInv := ⟨h.tableBound, h.entries⟩

theorem State.tableInv_of_empty {s : State} (h : s.table = []) : s.TableInv := by
  simp [State.TableInv, h]

/-- A decoded block's entry is within its bounds (R88). -/
theorem decodeAt_block_entry_wf {m : Memory} {c L next : Nat} {e : Entry}
    (h : decodeAt m c L = .ok (.block e next)) (hL : L < 2 ^ 32) : e.Wf := by
  obtain ⟨s, first, -, hvalid, -, rfl⟩ := decodeAt_block h
  exact entryOf_wf first hvalid hL

/-- Appending a decoded block to a table with a free entry. -/
theorem State.TableInv.appendBlock {s : State} {e : Entry} {next : Nat} (h : s.TableInv)
    (hd : decodeAt s.cap s.cursor.toNat s.bufLen.toNat = .ok (.block e next)) (hfree : s.tableFull = false) :
    (s.appendBlock e next).TableInv := by
  obtain ⟨hlen, hall⟩ := h
  have hne : s.table.length ≠ s.params.maxBlocks.toNat := of_decide_eq_false hfree
  refine ⟨?_, fun x hx => ?_⟩
  · rw [State.appendBlock_table, State.appendBlock_params, List.length_append, List.length_singleton]
    omega
  · rw [State.appendBlock_table, List.mem_append, List.mem_singleton] at hx
    rcases hx with hx | rfl
    · exact hall x hx
    · exact decodeAt_block_entry_wf hd s.bufLen.isLt

theorem readLoop_tableInv {s t : State} {n : Nat} {code : ResultCode} (hn : s.bufLen.toNat - s.cursor.toNat ≤ n)
    (hs : s.TableInv) (h : readLoop s n = .ok (t, code)) : t.TableInv :=
  (readLoop_induct hn (fun _ _ _ hu hd hfree => hu.appendBlock hd hfree) hs h).1

/-- Every command that completes keeps the table's part of the invariant. -/
theorem exec_tableInv {i : Instr} {s t : State} (hs : s.TableInv) (h : exec i s = .next t) : t.TableInv := by
  cases i with
  | nop => cases h; exact hs
  | csum => rcases exec_csum_next h with ⟨-, rfl⟩ | ⟨-, -, rfl⟩ <;> exact hs
  | findPilot => rcases exec_findPilot_next h with ⟨-, rfl⟩ | ⟨-, _, -, rfl⟩ <;> exact hs
  | seekHeader => rcases exec_seekHeader_next h with ⟨-, rfl⟩ | ⟨-, _, -, rfl⟩ <;> exact hs
  | decode =>
    rcases exec_decode_next h with ⟨-, rfl⟩ | ⟨-, _, -, rfl⟩ | ⟨-, e, next, hd, ⟨-, rfl⟩ | ⟨hfree, rfl⟩⟩
    · exact hs
    · exact hs
    · exact hs
    · exact hs.appendBlock hd hfree
  | readBlocks =>
    rcases exec_readBlocks_next h with ⟨-, rfl⟩ | ⟨-, u, code, hl, rfl⟩
    · exact hs
    · have hu : u.TableInv := readLoop_tableInv (Nat.le_refl _) (State.tableInv_of_empty rfl) hl
      exact hu
  | checkComplete => cases h; exact hs
  | clearTable => cases h; exact State.tableInv_of_empty rfl
  | reserved opc => cases h; exact hs

/-! ## The invariant along a step -/

/-- An update that keeps the parameters and the capture keeps the invariant when the table and the handshake (`BUSY`,
`DONE`, `PEND` and the delay) meet their own clauses afterwards. -/
theorem State.Inv.of_same_cap {s t : State} (h : s.Inv) (hparams : t.params = s.params) (hcap : t.cap = s.cap)
    (htable : t.TableInv) (hpend : t.status.busy = t.pend.isSome)
    (hdone : t.status.busy = true → t.status.done = false) (hdelay : t.pend = none → t.delay = 0) : t.Inv where
  params := hparams ▸ h.params
  capWf := hcap ▸ h.capWf
  capBound := hcap ▸ hparams ▸ h.capBound
  busyPend := hpend
  busyNotDone := hdone
  tableBound := htable.1
  entries := htable.2
  idleDelay := hdelay

/-- The engine's step (R111): a completion leaves the block idle with no delay. -/
theorem State.Inv.exec {i : Instr} {s t : State} (h : s.Inv) (he : exec i s = .next t) : t.Inv := by
  have htable := exec_tableInv h.tableInv he
  obtain ⟨_, _, _, _, _, _, _, rfl⟩ := exec_next he
  exact h.of_same_cap rfl rfl htable rfl nofun (fun _ => rfl)

/-- Storing a byte inside the memory (R37). -/
theorem State.Inv.store {s : State} (h : s.Inv) {i : Nat} (b : Byte) (hi : i < s.params.capSize.toNat) :
    State.Inv { s with cap := s.cap.write i b } where
  params := h.params
  capWf := Memory.wf_write h.capWf i b
  capBound := fun c hc => by
    rcases Memory.mem_write hc with rfl | hc
    · exact hi
    · exact h.capBound c hc
  busyPend := h.busyPend
  busyNotDone := h.busyNotDone
  tableBound := h.tableBound
  entries := h.entries
  idleDelay := h.idleDelay

/-- A write of the host, whatever it does (R104, R105). -/
theorem State.Inv.writeEffect {s t : State} (h : s.Inv) (he : WriteEffect s t) : t.Inv := by
  cases he with
  | ignored => exact h
  | reset =>
    exact h.of_same_cap rfl rfl (State.tableInv_of_empty rfl) rfl nofun (fun _ => rfl)
  | enable b => exact h.of_same_cap rfl rfl h.tableInv h.busyPend h.busyNotDone h.idleDelay
  | acknowledge w =>
    refine h.of_same_cap rfl rfl h.tableInv h.busyPend (fun hb => ?_) h.idleDelay
    rw [State.writeStatus_status, Status.w1c_done, h.busyNotDone hb, Bool.false_and]
  | refused _ => exact h.of_same_cap rfl rfl h.tableInv h.busyPend h.busyNotDone h.idleDelay
  | accepted opc _ => exact h.of_same_cap rfl rfl h.tableInv rfl (fun _ => rfl) nofun
  | operand bl cu aa al ti _ => exact h.of_same_cap rfl rfl h.tableInv h.busyPend h.busyNotDone h.idleDelay
  | stored i b _ hi => exact h.store b hi

theorem State.Inv.access {s : State} (h : s.Inv) (a : HostOp) : (s.access a).Inv := by
  rcases s.access_effect a with he | ⟨d, hst, he⟩
  · exact h.writeEffect he
  · rw [he]
    exact h.of_same_cap rfl rfl h.tableInv h.busyPend h.busyNotDone h.idleDelay

/-- A host access: the delay it uses up is 0 already while nothing is pending. -/
theorem State.Inv.hostStep {s : State} (h : s.Inv) (l : HostLine) : (s.hostStep l).Inv := by
  have hused : State.Inv { s with delay := s.delay - 1 } :=
    h.of_same_cap rfl rfl h.tableInv h.busyPend h.busyNotDone fun hp => by simp [h.idleDelay hp]
  obtain ⟨a, p, heq⟩ := s.hostStep_eq l
  have hacc := hused.access a
  rw [heq]
  exact hacc.of_same_cap rfl rfl hacc.tableInv hacc.busyPend hacc.busyNotDone hacc.idleDelay

theorem State.Inv.step {s t : State} (h : s.Inv) (hs : step s = .next t) : t.Inv := by
  rcases step_next hs with ⟨opc, -, he⟩ | ⟨l, -, -, rfl⟩ | ⟨-, -, rfl⟩
  · exact h.exec he
  · exact h.hostStep l
  · exact h

/-- Settles O57: an engine completion, a host access and an idle step each keep the invariant. -/
theorem everyStepKeepsTheInvariant : Obligations.EveryStepKeepsTheInvariant :=
  fun _ _ h hs => h.step hs

/-! ## The invariant at reset -/

theorem State.resetWith_inv {p : Params} (hp : p.wf) : (State.resetWith p).Inv where
  params := hp
  capWf := Memory.wf_nil
  capBound := nofun
  busyPend := rfl
  busyNotDone := nofun
  tableBound := Nat.zero_le _
  entries := nofun
  idleDelay := fun _ => rfl

/-- Every size the platform can pick is at least 1 (R7). -/
theorem Config.one_le_sizeOfPick (pick : Nat) : 1 ≤ (Config.sizeOfPick pick).toNat := by
  have hlt : 1 + pick % (2 ^ 32 - 1) < 2 ^ 32 := by omega
  rw [Config.sizeOfPick, ofNat_toNat_lt hlt]
  omega

theorem Config.params_wf : Config.params.wf :=
  ⟨Config.one_le_sizeOfPick _, Config.one_le_sizeOfPick _⟩

/-- Settles O58: reset with any parameters within R7's bounds, and `Config.params` are such. -/
theorem resetMeetsTheInvariant : Obligations.ResetMeetsTheInvariant :=
  ⟨fun _ hp => State.resetWith_inv hp, State.resetWith_inv Config.params_wf⟩

/-! ## A large table never overflows -/

/-- Every block a pass appends moves `CURSOR` by at least 12 bytes (R93). -/
theorem readLoop_cursor_bound {s t : State} {n : Nat} {code : ResultCode} (hn : s.bufLen.toNat - s.cursor.toNat ≤ n)
    (hs : s.table = []) (h : readLoop s n = .ok (t, code)) :
    s.cursor.toNat + 12 * t.table.length ≤ t.cursor.toNat := by
  refine (readLoop_induct (P := fun u => s.cursor.toNat + 12 * u.table.length ≤ u.cursor.toNat) hn ?_ ?_ h).1
  · intro u e next hu hd _
    have hmove := decodeAt_block_next hd
    rw [State.appendBlock_cursor_toNat hd, State.appendBlock_table, List.length_append, List.length_singleton]
    omega
  · simp [hs]

/-- A pass whose bound covers the remaining buffer ends as R91 says. -/
theorem readLoop_passEnd {s t : State} {n : Nat} {code : ResultCode} (hn : s.bufLen.toNat - s.cursor.toNat ≤ n)
    (h : readLoop s n = .ok (t, code)) : PassEnd t code :=
  (readLoop_induct (P := fun _ => True) hn (fun _ _ _ _ _ _ => trivial) trivial h).2

/-- A pass stops with `TABLE_FULL` only on a full table with 12 bytes or more left to decode. -/
theorem PassEnd.of_tableFull {t : State} (h : PassEnd t .tableFull) :
    t.table.length = t.params.maxBlocks.toNat ∧ t.cursor.toNat + 12 ≤ t.bufLen.toNat := by
  rcases h with hfail | ⟨-, hfull, e, next, hd⟩
  · exact absurd (decodeAt_fail hfail) (by decide)
  · have hmove := decodeAt_block_next hd
    exact ⟨t.tableFull_iff.1 hfull, by omega⟩

/-- Settles O37: `MAX_BLOCKS` blocks and one more would take 12 · (`MAX_BLOCKS` + 1) bytes, more than `BUF_LEN`. -/
theorem largeTableNeverOverflows : Obligations.LargeTableNeverOverflows := by
  intro s t hr hlarge h hcode
  rcases exec_readBlocks_next h with ⟨hout, -⟩ | ⟨-, u, code, hl, rfl⟩
  · exact hout hr
  · obtain rfl : code = .tableFull := hcode
    have hbound := readLoop_cursor_bound (Nat.le_refl _) rfl hl
    obtain ⟨hfull, hleft⟩ := (readLoop_passEnd (Nat.le_refl _) hl).of_tableFull
    rw [readLoop_frame hl] at hfull hleft
    dsimp only at hbound hfull hleft
    omega

/-! ## The host's file -/

/-- The host reads back a written byte of the memory as it stands (R37). -/
theorem State.capReadValue_of_written {s : State} {i : Nat} (hi : i < s.params.capSize.toNat)
    (hw : (s.cap.read i).isSome) : s.capReadValue i = s.cap.byteAt i := by
  obtain ⟨b, hb⟩ := Option.isSome_iff_exists.1 hw
  simp [State.capReadValue, Memory.byteAt, hb, hi]

/-- A raw range written inside the memory reads back as the capture's bytes (R13). -/
theorem State.rawData_of_written {s : State} {e : Entry}
    (hin : e.start.toNat + e.rawLen.toNat ≤ s.params.capSize.toNat)
    (hw : s.cap.Written e.start.toNat (e.start.toNat + e.rawLen.toNat)) :
    s.rawData e = s.cap.slice e.start.toNat e.rawLen.toNat := by
  refine List.map_congr_left fun j hj => ?_
  have hj := List.mem_range.1 hj
  exact State.capReadValue_of_written (by omega) (hw _ (by omega) (by omega))

theorem State.allRawData_of_written {s : State}
    (h : ∀ x ∈ s.table, x.start.toNat + x.rawLen.toNat ≤ s.params.capSize.toNat ∧
      s.cap.Written x.start.toNat (x.start.toNat + x.rawLen.toNat)) :
    s.allRawData = s.table.flatMap (fun x => s.cap.slice x.start.toNat x.rawLen.toNat) :=
  List.flatMap_congr fun x hx => State.rawData_of_written (h x hx).1 (h x hx).2

/-- The file over a table that is not empty (R13, R14). -/
theorem State.outputFile_cons {s : State} {e : Entry} {es : List Entry} (h : s.table = e :: es) :
    s.outputFile = if e.first then .fresh (List.replicate 256 0x00#8 ++ s.allRawData) else .append s.allRawData := by
  simp only [State.outputFile, h, pilotLen]

theorem bitAt_getLsbD {i : Nat} (hi : i < 32) (b : Bool) (j : Nat) : (bitAt i b).getLsbD j = (decide (j = i) && b) := by
  simp only [bitAt, BitVec.getLsbD_shiftLeft, BitVec.getLsbD_setWidth, BitVec.getLsbD_ofBool]
  rcases Nat.lt_trichotomy j i with h | rfl | h
  · simp [h, Nat.ne_of_lt h]
  · simp [hi]
  · simp [Nat.ne_of_gt h, Nat.sub_ne_zero_of_lt h]

/-- Bit 16 of `STATUS` is `COMPLETE` (R23): `RESULT` ends at bit 15. -/
theorem Status.pack_getLsbD_complete (st : Status) : st.pack.getLsbD 16 = st.flags.complete := by
  have hresult : (st.result.code.setWidth 32 <<< 8).getLsbD 16 = false := by simp
  simp only [Status.pack, BitVec.getLsbD_or, hresult]
  simp [bitAt_getLsbD, -BitVec.getLsbD_eq_getElem]

/-- `COMPLETE` over a table with first entry `e` and last entry `l` (R98, R100). -/
theorem compFlags_complete {e l : Entry} {es : List Entry} (hl : (e :: es).getLast? = some l) :
    (compFlags (e :: es)).complete = (e.first && decide (l.blkNum = 0#8)) := by
  simp [compFlags, hl]

/-- Every command but CHECK_COMPLETE leaves `STATUS[19:16]` at 0 (R35, R112). -/
theorem exec_flags_none {i : Instr} {s t : State} (hi : i ≠ .checkComplete) (h : exec i s = .next t) :
    t.status.flags = CompFlags.none := by
  cases i with
  | nop => cases h; rfl
  | csum => rcases exec_csum_next h with ⟨-, rfl⟩ | ⟨-, -, rfl⟩ <;> rfl
  | findPilot => rcases exec_findPilot_next h with ⟨-, rfl⟩ | ⟨-, _, -, rfl⟩ <;> rfl
  | seekHeader => rcases exec_seekHeader_next h with ⟨-, rfl⟩ | ⟨-, _, -, rfl⟩ <;> rfl
  | decode =>
    rcases exec_decode_next h with ⟨-, rfl⟩ | ⟨-, _, -, rfl⟩ | ⟨-, _, _, -, ⟨-, rfl⟩ | ⟨-, rfl⟩⟩ <;> rfl
  | readBlocks => rcases exec_readBlocks_next h with ⟨-, rfl⟩ | ⟨-, _, _, -, rfl⟩ <;> rfl
  | checkComplete => exact absurd rfl hi
  | clearTable => cases h; rfl
  | reserved opc => cases h; rfl

/-- Settles O56: the file's contents, the bit it is written by, and that bit after CHECK_COMPLETE and after any other
command. -/
theorem hostFileFollowsFirstBlock : Obligations.HostFileFollowsFirstBlock := by
  refine ⟨fun s e es hs hw => ?_, fun s asked => ?_, fun s t e l es asked hs hl h => ?_, fun i s t asked hi h => ?_⟩
  · rw [State.outputFile_cons hs, State.allRawData_of_written hw]
  · rw [Status.pack_getLsbD_complete, State.hostWrites]
  · obtain ⟨hflags, -, hfile⟩ := exec_checkComplete_flags h
    rw [State.hostWrites, hflags, hfile, hs, compFlags_complete hl]
  · exact State.hostWrites_of_no_flags (exec_flags_none hi h) asked

end Sys2Proof.Machine
end

section
/-! PROOFS. The state's registers (O8, O9, O47 to O49, O59, O60): what each command writes and where it moves `CURSOR`,
the handshake and the parameters along a step, `IRQ`, and the packed words of the table window and of `STATUS`. -/

namespace Sys2Proof.Machine

open Sys2Proof

/-! ## The registers a command writes -/

/-- Settles O8: command by command, as the writes column of R63 lists them. -/
theorem commandsWriteOnlyTheirOwnResults : Obligations.CommandsWriteOnlyTheirOwnResults := by
  intro i s t h
  refine ⟨(exec_next h).untouched, ?_⟩
  cases i with
  | nop => cases h; simp
  | csum => rcases exec_csum_next h with ⟨-, rfl⟩ | ⟨-, -, rfl⟩ <;> simp
  | findPilot => rcases exec_findPilot_next h with ⟨-, rfl⟩ | ⟨-, _, -, rfl⟩ <;> simp
  | seekHeader => rcases exec_seekHeader_next h with ⟨-, rfl⟩ | ⟨-, _, -, rfl⟩ <;> simp
  | decode => rcases exec_decode_next h with ⟨-, rfl⟩ | ⟨-, _, -, rfl⟩ | ⟨-, _, _, -, ⟨-, rfl⟩ | ⟨-, rfl⟩⟩ <;> simp
  | readBlocks =>
    rcases exec_readBlocks_next h with ⟨-, rfl⟩ | ⟨-, _, _, hl, rfl⟩
    · simp
    · rw [readLoop_frame hl]; simp
  | checkComplete => cases h; simp
  | clearTable => cases h; simp
  | reserved opc => cases h; simp

/-! ## CURSOR -/

/-- `CURSOR` stays, or moves within a buffer that passed `RangeOK()`, not backwards (R18, R107). -/
def CursorKeptOrForward (s t : State) : Prop :=
  t.cursor = s.cursor ∨ (s.InRange ∧ s.cursor.toNat ≤ t.cursor.toNat ∧ t.cursor.toNat ≤ s.bufLen.toNat)

/-- A pass that starts within the buffer ends within it (R88). -/
theorem readLoop_cursor_le {s t : State} {n : Nat} {code : ResultCode} (hn : s.bufLen.toNat - s.cursor.toNat ≤ n)
    (hs : s.cursor.toNat ≤ s.bufLen.toNat) (h : readLoop s n = .ok (t, code)) : t.cursor.toNat ≤ t.bufLen.toNat := by
  refine (readLoop_induct (P := fun u => u.cursor.toNat ≤ u.bufLen.toNat) hn ?_ hs h).1
  intro u e next _ hd _
  rw [State.appendBlock_cursor_toNat hd, State.appendBlock_bufLen]
  exact (decodeAt_block_next hd).2

/-- DECODE leaves `CURSOR`, or moves it behind a block of the remaining buffer (R88, R90). -/
theorem exec_decode_cursor {s t : State} (h : exec .decode s = .next t) : CursorKeptOrForward s t := by
  rcases exec_decode_next h with ⟨-, rfl⟩ | ⟨-, _, -, rfl⟩ | ⟨hr, e, next, hd, ⟨-, rfl⟩ | ⟨-, rfl⟩⟩
  · exact .inl rfl
  · exact .inl rfl
  · exact .inl rfl
  · have hmove := decodeAt_block_next hd
    refine .inr ⟨hr, ?_⟩
    rw [State.finish_cursor, State.appendBlock_cursor_toNat hd]
    omega

/-- READ_BLOCKS leaves `CURSOR`, or moves it to the end of its pass (R91). -/
theorem exec_readBlocks_cursor {s t : State} (h : exec .readBlocks s = .next t) : CursorKeptOrForward s t := by
  rcases exec_readBlocks_next h with ⟨-, rfl⟩ | ⟨hr, u, code, hl, rfl⟩
  · exact .inl rfl
  · have hforward := readLoop_cursor_bound (Nat.le_refl _) rfl hl
    have hinside := readLoop_cursor_le (s := { s with table := [] }) (Nat.le_refl _) hr.2 hl
    rw [readLoop_frame hl] at hinside
    exact .inr ⟨hr, Nat.le_of_add_right_le hforward, hinside⟩

/-- Settles O9: only DECODE and READ_BLOCKS write `CURSOR` (O8), and each that moves it passed `RangeOK()` (R107). -/
theorem cursorOnlyMovesForward : Obligations.CursorOnlyMovesForward := by
  intro i s t h hne
  obtain ⟨-, -, -, hcursor, -⟩ := commandsWriteOnlyTheirOwnResults i s t h
  have hi := hcursor hne
  have hmove : CursorKeptOrForward s t := by
    rcases hi with rfl | rfl
    · exact exec_decode_cursor h
    · exact exec_readBlocks_cursor h
  obtain ⟨⟨hfits, -⟩, hforward, hinside⟩ := hmove.resolve_left hne
  have hstrict : t.cursor.toNat ≠ s.cursor.toNat := BitVec.toNat_ne.1 hne
  exact ⟨hi, by omega, hinside, hfits⟩

/-! ## The table window -/

theorem Entry.w1_toNat (e : Entry) :
    e.w1.toNat = e.sizeByte.toNat * 2 ^ 24 + e.blkNum.toNat * 2 ^ 16 + e.load.toNat := by
  rw [Entry.w1, toNat_append, toNat_append]
  omega

theorem Entry.w2_toNat (e : Entry) :
    e.w2.toNat = e.first.toNat * 2 ^ 31 + e.rawLen.toNat * 2 ^ 16 + e.dataSize.toNat := by
  rw [Entry.w2, toNat_append, toNat_append, toNat_append, toNat_append, BitVec.toNat_ofBool]
  simp only [BitVec.toNat_ofNat]
  omega

theorem Entry.w3_toNat (e : Entry) : e.w3.toNat = e.dcsum.toNat * 2 ^ 8 + e.hcsum.toNat := by
  rw [Entry.w3, toNat_append, toNat_append]
  simp only [BitVec.toNat_ofNat]
  omega

theorem State.tblWord_of_entry {s : State} {e : Entry} (h : s.table[s.tblIndex.toNat]? = some e) (word : Entry → Word) :
    s.tblWord word = word e := by
  simp only [State.tblWord, h]

theorem State.tblWord_beyond {s : State} (h : s.table.length ≤ s.tblIndex.toNat) (word : Entry → Word) :
    s.tblWord word = 0#32 := by
  simp only [State.tblWord, List.getElem?_eq_none h]

/-- Settles O48: the window shows the selected entry's words, whose fields stand at the places of R66. -/
theorem tableWindowShowsPackedEntry : Obligations.TableWindowShowsPackedEntry := by
  refine ⟨fun s e he => ?_, fun s hs r hr => ?_⟩
  · simp only [State.readReg, State.tblWord_of_entry he]
    exact ⟨rfl, e.w1_toNat, e.w2_toNat, e.w3_toNat⟩
  · simp only [List.mem_cons, List.not_mem_nil, or_false] at hr
    rcases hr with rfl | rfl | rfl | rfl <;> exact State.tblWord_beyond hs _

/-! ## BUSY and PEND along a step -/

/-- `BUSY = 1 ⇔ PEND ≠ nothing` (R33). -/
def State.BusyIffPending (s : State) : Prop := s.status.busy = s.pend.isSome

theorem WriteEffect.busyIffPending {s t : State} (he : WriteEffect s t) (h : s.BusyIffPending) : t.BusyIffPending := by
  cases he with
  | ignored => exact h
  | reset => rfl
  | enable _ => exact h
  | acknowledge _ => exact h
  | refused _ => exact h
  | accepted _ _ => rfl
  | operand _ _ _ _ _ _ => exact h
  | stored _ _ _ _ => exact h

theorem State.BusyIffPending.access {s : State} (h : s.BusyIffPending) (a : HostOp) : (s.access a).BusyIffPending := by
  rcases s.access_effect a with he | ⟨_, _, he⟩
  · exact he.busyIffPending h
  · rw [he]; exact h

theorem State.BusyIffPending.hostStep {s : State} (h : s.BusyIffPending) (l : HostLine) :
    (s.hostStep l).BusyIffPending := by
  obtain ⟨a, p, heq⟩ := s.hostStep_eq l
  have hused : State.BusyIffPending { s with delay := s.delay - 1 } := h
  rw [heq]
  exact hused.access a

theorem State.BusyIffPending.step {s t : State} (h : s.BusyIffPending) (hs : step s = .next t) : t.BusyIffPending := by
  rcases step_next hs with ⟨_, -, he⟩ | ⟨l, -, -, rfl⟩ | ⟨-, -, rfl⟩
  · obtain ⟨_, _, _, _, _, _, _, rfl⟩ := exec_next he
    rfl
  · exact h.hostStep l
  · exact h

/-- Settles O59: a completion lowers both, an acceptance raises both, a soft reset clears both, and nothing else writes
either. -/
theorem busyExactlyWhenPending : Obligations.BusyExactlyWhenPending :=
  ⟨fun _ => rfl, fun _ _ h hs => State.BusyIffPending.step h hs⟩

/-! ## The parameters along a step -/

theorem WriteEffect.params_eq {s t : State} (he : WriteEffect s t) : t.params = s.params := by
  cases he <;> rfl

theorem State.access_params (s : State) (a : HostOp) : (s.access a).params = s.params := by
  rcases s.access_effect a with he | ⟨_, _, he⟩
  · exact he.params_eq
  · rw [he]

theorem State.hostStep_params (s : State) (l : HostLine) : (s.hostStep l).params = s.params := by
  obtain ⟨a, p, heq⟩ := s.hostStep_eq l
  rw [heq, State.hostAt_params, State.access_params]

/-- No step changes the parameters (R7). -/
theorem step_params {s t : State} (h : step s = .next t) : t.params = s.params := by
  rcases step_next h with ⟨_, -, he⟩ | ⟨l, -, -, rfl⟩ | ⟨-, -, rfl⟩
  · exact (exec_next he).untouched.params
  · exact s.hostStep_params l
  · rfl

/-- Settles O60: the two sizes read the parameters, which no step changes, and the writes of the three registers do
nothing. -/
theorem constantRegistersNeverChange : Obligations.ConstantRegistersNeverChange := by
  refine ⟨fun s t h => ?_, fun s w => ⟨rfl, rfl, rfl, fun off hoff => ?_⟩⟩
  · have hp := step_params h
    exact ⟨congrArg Params.capSize hp, congrArg Params.maxBlocks hp, rfl, hp⟩
  · simp only [List.mem_cons, List.not_mem_nil, or_false] at hoff
    rcases hoff with rfl | rfl | rfl
    · exact s.access_regWrite .id w
    · exact s.access_regWrite .cfgCapSize w
    · exact s.access_regWrite .cfgMaxBlocks w

/-! ## IRQ -/

theorem State.irq_of_not_done {s : State} (h : s.status.done = false) : s.irq = false := by
  rw [State.irq, h, Bool.false_and]

theorem State.writeCtrl_enable (s : State) {w : Word} (h : w.getLsbD 1 = false) :
    s.writeCtrl w = { s with ie := w.getLsbD 0 } := by
  simp only [State.writeCtrl, h, Bool.false_eq_true, if_false]

theorem State.writeCtrl_softReset (s : State) {w : Word} (h : w.getLsbD 1 = true) : s.writeCtrl w = s.softReset := by
  simp only [State.writeCtrl, h, if_true]

/-- Settles O47: `CTRL` writes set and clear `IE`, and each other way to lower `IRQ` clears `DONE`. -/
theorem irqFollowsDoneAndEnable : Obligations.IrqFollowsDoneAndEnable := by
  intro s
  have henable : s.access (.regWrite 32 0x004#12 0x1#32) = { s with ie := true } :=
    (s.access_regWrite .ctrl _).trans (s.writeCtrl_enable (by decide))
  have hdisable : s.access (.regWrite 32 0x004#12 0x0#32) = { s with ie := false } :=
    (s.access_regWrite .ctrl _).trans (s.writeCtrl_enable (by decide))
  have hreset : s.access (.regWrite 32 0x004#12 0x2#32) = s.softReset :=
    (s.access_regWrite .ctrl _).trans (s.writeCtrl_softReset (by decide))
  have hack : s.access (.regWrite 32 0x00C#12 0x2#32) = s.writeStatus 0x2#32 := s.access_regWrite .status _
  have haccept (hb : s.status.busy = false) (w : Word) :
      s.access (.regWrite 32 0x008#12 w) = s.accept (opcOfWord w) :=
    (s.access_regWrite .cmd w).trans (State.writeIdle_idle hb _)
  rw [henable, hdisable, hreset, hack]
  refine ⟨rfl, fun hd => ?_, Bool.and_false _, rfl, State.irq_of_not_done ?_, fun hb w => ?_, rfl, fun _ => rfl⟩
  · rw [State.irq, hd, Bool.true_and]
  · exact Bool.and_false _
  · rw [haccept hb w]
    exact State.irq_of_not_done rfl

/-! ## STATUS as a word -/

/-- The code's bits stand from bit 8 on (R23). -/
theorem codeField_getLsbD (c : Byte) (j : Nat) :
    (c.setWidth 32 <<< 8).getLsbD j = (decide (8 ≤ j) && c.getLsbD (j - 8)) := by
  rw [BitVec.getLsbD_shiftLeft, BitVec.getLsbD_setWidth]
  by_cases h : j < 32
  · simp [h, show j - 8 < 32 by omega, ← decide_not]
  · simp [h, BitVec.getLsbD_of_ge c (j - 8) (by omega)]

/-- Every bit of `STATUS`: eight flags at their places, and the code from bit 8 on (R23). -/
theorem Status.pack_getLsbD (st : Status) (j : Nat) :
    st.pack.getLsbD j =
      (decide (j = 0) && st.busy || decide (j = 1) && st.done || decide (j = 2) && st.found ||
        decide (j = 3) && st.ovr || decide (8 ≤ j) && st.result.code.getLsbD (j - 8) ||
        decide (j = 16) && st.flags.complete || decide (j = 17) && st.flags.missingBegin ||
        decide (j = 18) && st.flags.missingEnd || decide (j = 19) && st.flags.noData) := by
  simp only [Status.pack, BitVec.getLsbD_or, bitAt_getLsbD, codeField_getLsbD, Nat.reduceLT]

/-- Bits 15:8 are `RESULT` (R23). -/
theorem Status.pack_extract_result (st : Status) : st.pack.extractLsb' 8 8 = st.result.code := by
  refine BitVec.eq_of_getLsbD_eq fun j hj => ?_
  rw [BitVec.getLsbD_extractLsb', st.pack_getLsbD]
  simp (disch := omega) only [hj, decide_eq_false, decide_true, Nat.le_add_right, Nat.add_sub_cancel_left,
    Bool.false_and, Bool.true_and, Bool.or_false, Bool.false_or]

/-- Bits 7:4 and 31:20 are reserved (R23). -/
theorem Status.pack_getLsbD_reserved (st : Status) {j : Nat} (h : 4 ≤ j ∧ j < 8 ∨ 20 ≤ j) :
    st.pack.getLsbD j = false := by
  have hcode : (decide (8 ≤ j) && st.result.code.getLsbD (j - 8)) = false := by
    rcases h with h | h
    · rw [decide_eq_false (by omega), Bool.false_and]
    · rw [BitVec.getLsbD_of_ge _ _ (by omega), Bool.and_false]
  rw [st.pack_getLsbD, hcode]
  simp (disch := omega) only [decide_eq_false, Bool.false_and, Bool.or_false]

/-- A field all of whose bits are reserved reads 0. -/
theorem Status.pack_extract_reserved (st : Status) {a n : Nat} (h : 4 ≤ a ∧ a + n ≤ 8 ∨ 20 ≤ a) :
    st.pack.extractLsb' a n = 0#n := by
  refine BitVec.eq_of_getLsbD_eq fun j hj => ?_
  rw [BitVec.getLsbD_extractLsb', st.pack_getLsbD_reserved (by omega), BitVec.getLsbD_zero, Bool.and_false]

/-- The single bits of `STATUS` (R23). -/
theorem Status.pack_getLsbD_flags (st : Status) :
    st.pack.getLsbD 0 = st.busy ∧ st.pack.getLsbD 1 = st.done ∧ st.pack.getLsbD 2 = st.found ∧
    st.pack.getLsbD 3 = st.ovr ∧ st.pack.getLsbD 16 = st.flags.complete ∧
    st.pack.getLsbD 17 = st.flags.missingBegin ∧ st.pack.getLsbD 18 = st.flags.missingEnd ∧
    st.pack.getLsbD 19 = st.flags.noData := by
  simp [Status.pack_getLsbD, -BitVec.getLsbD_eq_getElem]

/-- Settles O49: the flags, the two reserved fields, the code's field, and the codes themselves. -/
theorem statusFieldPlaces : Obligations.StatusFieldPlaces := by
  refine ⟨fun st => ?_, rfl, rfl, rfl, rfl, rfl, rfl, rfl, rfl, rfl, rfl⟩
  obtain ⟨hbusy, hdone, hfound, hovr, hcomplete, hbegin, hend, hnoData⟩ := st.pack_getLsbD_flags
  exact ⟨hbusy, hdone, hfound, hovr, st.pack_extract_reserved (by decide), st.pack_extract_result, hcomplete, hbegin,
    hend, hnoData, st.pack_extract_reserved (by decide)⟩

end Sys2Proof.Machine
end

section
/-! PROOFS. The capture memory and the host's accesses (O44, O45, O50, O52, O55): commands over captures that agree
below `BUF_LEN`, capture writes and reads, register accesses that do nothing, and the host's address map. -/

namespace Sys2Proof.Machine

open Sys2Proof

/-! ## Another capture beneath the state -/

theorem State.rangeOK_with_cap (s : State) (m : Memory) : State.rangeOK { s with cap := m } = s.rangeOK := rfl

theorem State.csumRangeOK_with_cap (s : State) (m : Memory) :
    State.csumRangeOK { s with cap := m } = s.csumRangeOK := rfl

theorem State.tableFull_with_cap (s : State) (m : Memory) : State.tableFull { s with cap := m } = s.tableFull := rfl

/-- The same outcome, a next state over the capture `m`. -/
def outcomeOver (m : Memory) : Host.Outcome State Fault Refusal → Host.Outcome State Fault Refusal
  | .next t => .next { t with cap := m }
  | .fault f => .fault f
  | .refused r => .refused r

/-- The same answer of a pass, the state it leaves over the capture `m`. -/
def passOver (m : Memory) (r : State × ResultCode) : State × ResultCode := ({ r.1 with cap := m }, r.2)

theorem Memory.AgreeOn.mono {m m' : Memory} {a b a' b' : Nat} (h : m.AgreeOn m' a b) (ha : a ≤ a') (hb : b' ≤ b) :
    m.AgreeOn m' a' b' :=
  fun i hi hi' => h i (by omega) (by omega)

section
variable {s : State} {m : Memory}

theorem execCsum_with_cap (h : s.cap.AgreeOn m 0 s.bufLen.toNat) :
    execCsum { s with cap := m } = outcomeOver m (execCsum s) := by
  by_cases hr : s.csumRangeOK = true
  · have hfits := ((State.csumRangeOK_iff s).1 hr).2
    have hread := Memory.fetchRange_congr (h.mono (Nat.zero_le _) hfits)
    simp only [execCsum, State.csumRangeOK_with_cap, hr, if_true, ← hread]
    cases s.cap.fetchRange s.argAddr.toNat s.argLen.toNat <;> rfl
  · simp only [execCsum, State.csumRangeOK_with_cap, hr]
    rfl

theorem execFindPilot_with_cap (h : s.cap.AgreeOn m 0 s.bufLen.toNat) :
    execFindPilot { s with cap := m } = outcomeOver m (execFindPilot s) := by
  have hscan := pilotScan_congr (h.mono (Nat.zero_le s.cursor.toNat) (Nat.le_refl _))
  by_cases hr : s.rangeOK = true
  · simp only [execFindPilot, State.rangeOK_with_cap, hr, if_true, ← hscan]
    cases pilotScan s.cap s.cursor.toNat s.bufLen.toNat <;> rfl
  · simp only [execFindPilot, State.rangeOK_with_cap, hr]
    rfl

theorem execSeekHeader_with_cap (h : s.cap.AgreeOn m 0 s.bufLen.toNat) :
    execSeekHeader { s with cap := m } = outcomeOver m (execSeekHeader s) := by
  have hscan := magicScan_congr (h.mono (Nat.zero_le s.cursor.toNat) (Nat.le_refl _))
  by_cases hr : s.rangeOK = true
  · simp only [execSeekHeader, State.rangeOK_with_cap, hr, if_true, ← hscan]
    cases magicScan s.cap s.cursor.toNat s.bufLen.toNat <;> rfl
  · simp only [execSeekHeader, State.rangeOK_with_cap, hr]
    rfl

theorem execDecode_with_cap (h : s.cap.AgreeOn m 0 s.bufLen.toNat) :
    execDecode { s with cap := m } = outcomeOver m (execDecode s) := by
  have hdecode := decodeAt_congr (h.mono (Nat.zero_le s.cursor.toNat) (Nat.le_refl _))
  by_cases hr : s.rangeOK = true
  · simp only [execDecode, State.rangeOK_with_cap, State.tableFull_with_cap, hr, if_true, ← hdecode]
    rcases decodeAt s.cap s.cursor.toNat s.bufLen.toNat with f | ⟨e, next⟩ | code
    · rfl
    · by_cases hfull : s.tableFull = true <;> simp only [hfull] <;> rfl
    · rfl
  · simp only [execDecode, State.rangeOK_with_cap, hr]
    rfl

/-- Every round of a pass decodes alike: a block moves `CURSOR` and grows the table, never the capture or `BUF_LEN`. -/
theorem readLoop_with_cap (h : s.cap.AgreeOn m 0 s.bufLen.toNat) (n : Nat) :
    readLoop { s with cap := m } n = (readLoop s n).map (passOver m) := by
  induction n generalizing s with
  | zero => rfl
  | succ n ih =>
    have hdecode := decodeAt_congr (h.mono (Nat.zero_le s.cursor.toNat) (Nat.le_refl _))
    simp only [readLoop, State.tableFull_with_cap, ← hdecode]
    rcases decodeAt s.cap s.cursor.toNat s.bufLen.toNat with f | ⟨e, next⟩ | code
    · rfl
    · by_cases hfull : s.tableFull = true
      · simp only [hfull]
        rfl
      · simp only [hfull]
        exact ih (s := s.appendBlock e next) h
    · rfl

theorem execReadBlocks_with_cap (h : s.cap.AgreeOn m 0 s.bufLen.toNat) :
    execReadBlocks { s with cap := m } = outcomeOver m (execReadBlocks s) := by
  have hpass := readLoop_with_cap (s := { s with table := [] }) h (s.bufLen.toNat - s.cursor.toNat)
  by_cases hr : s.rangeOK = true
  · simp only [execReadBlocks, State.rangeOK_with_cap, hr, if_true, hpass]
    cases readLoop { s with table := [] } (s.bufLen.toNat - s.cursor.toNat) <;> rfl
  · simp only [execReadBlocks, State.rangeOK_with_cap, hr]
    rfl

/-- A command runs alike over captures that agree below `BUF_LEN` (R38). -/
theorem exec_with_cap (i : Instr) (h : s.cap.AgreeOn m 0 s.bufLen.toNat) :
    exec i { s with cap := m } = outcomeOver m (exec i s) := by
  cases i with
  | nop => rfl
  | csum => exact execCsum_with_cap h
  | findPilot => exact execFindPilot_with_cap h
  | seekHeader => exact execSeekHeader_with_cap h
  | decode => exact execDecode_with_cap h
  | readBlocks => exact execReadBlocks_with_cap h
  | checkComplete => rfl
  | clearTable => rfl
  | reserved opc => rfl

end

/-- Settles O52: every command is one outcome over both captures (R38), a completion or the same fault. -/
theorem bytesBeyondBufferDoNotMatter : Obligations.BytesBeyondBufferDoNotMatter := by
  intro i s m hagree
  have hrun := exec_with_cap i hagree
  exact ⟨fun t ht => by rw [hrun, ht]; rfl, fun f hf => by rw [hrun, hf]; rfl⟩

/-! ## The capture as the host sees it -/

/-- An idle write inside the memory stores the byte (R37). -/
theorem State.access_capWrite_inside {s : State} {i : Nat} (hidle : s.status.busy = false)
    (hi : i < s.params.capSize.toNat) (b : Byte) : s.access (.capWrite i b) = { s with cap := s.cap.write i b } := by
  simp [State.access, State.capWrite, hidle, hi]

/-- An idle write outside the memory is ignored (R37). -/
theorem State.access_capWrite_outside {s : State} {i : Nat} (hidle : s.status.busy = false)
    (hi : s.params.capSize.toNat ≤ i) (b : Byte) : s.access (.capWrite i b) = s := by
  simp [State.access, State.capWrite, hidle, hi]

/-- A busy write is refused, wherever it goes (R47, R105, log 9). -/
theorem State.access_capWrite_busy {s : State} (hbusy : s.status.busy = true) (i : Nat) (b : Byte) :
    s.access (.capWrite i b) = s.refuseWrite := by
  simp [State.access, State.capWrite, hbusy]

theorem State.capReadValue_outside {s : State} {i : Nat} (hi : s.params.capSize.toNat ≤ i) :
    s.capReadValue i = 0#8 := by
  rw [State.capReadValue, if_pos hi]

theorem State.capReadValue_of_read {s : State} {i : Nat} {b : Byte} (hi : i < s.params.capSize.toNat)
    (hb : s.cap.read i = some b) : s.capReadValue i = b := by
  rw [State.capReadValue_of_written hi (Option.isSome_of_eq_some hb), Memory.byteAt, hb, Option.getD_some]

/-- Settles O50: what each write does, and that the capture's `read` after `write` is the byte written. -/
theorem captureReadsBackWhatWasWritten : Obligations.CaptureReadsBackWhatWasWritten := by
  intro s i b
  refine ⟨fun hidle hi => ?_, fun hi => ?_, fun hbusy => ?_, fun v hi hv => ?_⟩
  · rw [State.access_capWrite_inside hidle hi]
    exact ⟨State.capReadValue_of_read hi (s.cap.read_write_same i b), rfl, fun j hj => s.cap.read_write_other b hj,
      fun hwf => Memory.wf_write hwf i b⟩
  · exact ⟨State.capReadValue_outside hi, fun hidle => State.access_capWrite_outside hidle hi b⟩
  · exact State.access_capWrite_busy hbusy i b
  · rw [State.access, State.capReadValue_of_read hi hv]

/-! ## Accesses that do nothing, and reads -/

theorem wordAligned_eq_false {bits : Nat} {off : BitVec 12} (h : bits ≠ 32 ∨ off.toNat % 4 ≠ 0) :
    wordAligned bits off = false := by
  rw [wordAligned, Bool.and_eq_false_iff, decide_eq_false_iff_not, decide_eq_false_iff_not]
  exact h

/-- An access that is no aligned word or reaches no register writes nothing and reads 0 (R31, R42). -/
theorem State.regAccess_without_register (s : State) {bits : Nat} {off : BitVec 12}
    (h : wordAligned bits off = false ∨ regAt off = none) (w : Word) :
    s.access (.regWrite bits off w) = s ∧ s.regReadValue bits off = 0#32 := by
  rcases h with h | h <;> simp [State.access, State.regWrite, State.regReadValue, h]

/-- Settles O44: no such access is an aligned word, and no register stands at a reserved offset. -/
theorem oddRegisterAccessesDoNothing : Obligations.OddRegisterAccessesDoNothing := by
  intro s bits off w
  exact ⟨fun hodd => s.regAccess_without_register (.inl (wordAligned_eq_false hodd)) w,
    fun hreserved => s.regAccess_without_register (.inr (regAt_reserved hreserved)) w⟩

/-- Settles O45: a register read draws a value (log 8), a capture read does not, and the host keeps what it got. -/
theorem readsHaveNoSideEffect : Obligations.ReadsHaveNoSideEffect := by
  rintro s a (⟨bits, off, rfl⟩ | ⟨i, rfl⟩)
  · exact ⟨s.regReadValue bits off, _, by rw [State.access, State.drawn_eq]; rfl⟩
  · exact ⟨(s.capReadValue i).setWidth 32, s.draws, rfl⟩

end Sys2Proof.Machine

namespace Sys2Proof

/-! ## The host's address map -/

theorem Params.regOffsetOf_regAddress (p : Params) (off : BitVec 12) : p.regOffsetOf (p.regAddress off) = some off := by
  have hin : p.regBase ≤ p.regBase + off.toNat ∧ p.regBase + off.toNat < p.regBase + 4096 := by
    have := off.isLt; omega
  rw [Params.regOffsetOf, Params.regAddress, if_pos hin, Nat.add_sub_cancel_left, BitVec.ofNat_toNat,
    BitVec.setWidth_eq]

theorem Params.capIndexOf_capAddress (p : Params) {i : Nat} (hi : i < p.capSize.toNat) :
    p.capIndexOf (p.capAddress i) = some i := by
  rw [Params.capIndexOf, Params.capAddress, if_pos (by omega), Nat.add_sub_cancel_left]

/-- The register window and the capture window do not overlap. -/
abbrev Params.Disjoint (p : Params) : Prop :=
  p.regBase + 4096 ≤ p.capBase ∨ p.capBase + p.capSize.toNat ≤ p.regBase

theorem Params.capIndexOf_regAddress {p : Params} (h : p.Disjoint) (off : BitVec 12) :
    p.capIndexOf (p.regAddress off) = none := by
  have hlt := off.isLt
  rw [Params.capIndexOf, Params.regAddress, if_neg (by omega)]

theorem Params.regOffsetOf_capAddress {p : Params} (h : p.Disjoint) {i : Nat} (hi : i < p.capSize.toNat) :
    p.regOffsetOf (p.capAddress i) = none := by
  rw [Params.regOffsetOf, Params.capAddress, if_neg (by omega)]

/-- Settles O55: an address in one of two disjoint windows names its offset or index there and nothing in the other. -/
theorem hostAddressReachesItsSpace : Obligations.HostAddressReachesItsSpace := by
  intro p hdisjoint
  refine ⟨fun bits off w => ?_, fun i w hi => ?_⟩
  · simp only [Params.busWrite, Params.busRead, p.regOffsetOf_regAddress, Params.capIndexOf_regAddress hdisjoint,
      and_self]
  · simp only [Params.busWrite, Params.busRead, p.capIndexOf_capAddress hi, Params.regOffsetOf_capAddress hdisjoint hi,
      if_true, BitVec.setWidth_eq_extractLsb' (show 8 ≤ 32 by decide), and_self]

end Sys2Proof
end

section
/-! PROOFS. The command format (O1 to O3): the opcode field of a word, what a `CMD` write decodes to, and the step that
runs an issued command. -/

namespace Sys2Proof

/-! ## The opcode map -/

theorem decodeOpc_opc {i : Instr} (h : i.wf = true) : decodeOpc i.opc = i := by
  cases i with
  | reserved opc => revert opc; decide
  | nop | csum | findPilot | seekHeader | decode | readBlocks | checkComplete | clearTable => rfl

theorem wf_decodeOpc (o : BitVec 4) : (decodeOpc o).wf = true := by
  revert o; decide

theorem opc_decodeOpc (o : BitVec 4) : (decodeOpc o).opc = o := by
  revert o; decide

theorem opcOfWord_encode (i : Instr) : opcOfWord (encode i) = i.opc := by
  rw [opcOfWord, encode, ← BitVec.setWidth_eq_extractLsb' (by decide), BitVec.setWidth_setWidth_of_le _ (by decide),
    BitVec.setWidth_eq]

theorem decodeWord_encode {i : Instr} (h : i.wf = true) : decodeWord (encode i) = i := by
  rw [decodeWord, opcOfWord_encode, decodeOpc_opc h]

/-- The encoder gives back the low four bits of the word a command was read from (R62). -/
theorem encode_decodeWord (w : Word) : encode (decodeWord w) = w &&& 0xF#32 := by
  rw [encode, decodeWord, opc_decodeOpc, Laws.TableRow.low_bits]

/-- Words that agree in bits 3:0 carry the same opcode (R62). -/
theorem opcOfWord_congr {w v : Word} (h : w &&& 0xF#32 = v &&& 0xF#32) : opcOfWord w = opcOfWord v := by
  rw [Laws.TableRow.low_bits, Laws.TableRow.low_bits] at h
  simpa using congrArg (BitVec.setWidth 4) h

/-! ## Transactions -/

theorem decodeOp_cmdWrite (w : Word) : decodeOp (.regWrite 32 cmdOffset w) = .ok (decodeWord w) := rfl

/-- Only a 32-bit write to `CMD` carries a command (R62). -/
theorem decodeOp_ok {op : HostOp} {i : Instr} (h : decodeOp op = .ok i) :
    ∃ w : Word, op = .regWrite 32 cmdOffset w ∧ i = decodeWord w := by
  cases op with
  | regWrite bits offset w =>
    simp only [decodeOp] at h
    split at h
    · cases h
    split at h
    · cases h
    split at h
    · cases h
    rename_i hbits _ hoff
    cases h
    exact ⟨w, by rw [not_not.1 hbits, not_not.1 hoff], rfl⟩
  | regRead _ _ | capWrite _ _ | capRead _ => cases h

/-- All 32 bits of the table are the `CMD` word (log 16). -/
theorem decodeTableWord_toNat (w : Word) : decodeTableWord 32 w.toNat = some (decodeWord w) := by
  have hmod : w.toNat % 2 ^ 32 = w.toNat := Nat.mod_eq_of_lt w.isLt
  simp only [decodeTableWord, tableWord, hmod, w.isLt, if_true, BitVec.ofNat_toNat, BitVec.setWidth_eq,
    decodeOp_cmdWrite]

/-- Settles O2: the one transaction that decodes, and the opcode field as the word's low four bits. -/
theorem oneCommandFormat : Obligations.OneCommandFormat := by
  refine ⟨fun op i => ⟨decodeOp_ok, ?_⟩, fun w v h => ?_, fun w => ⟨wf_decodeOpc _, encode_decodeWord w⟩⟩
  · rintro ⟨w, rfl, rfl⟩
    exact decodeOp_cmdWrite w
  · rw [decodeWord, decodeWord, opcOfWord_congr h]

/-- Settles O3: each word is evaluated by the opcode map. -/
theorem specCommandWordsDecode : Obligations.SpecCommandWordsDecode :=
  ⟨rfl, rfl, rfl, rfl, rfl, rfl, rfl, rfl, rfl, rfl⟩

end Sys2Proof

namespace Sys2Proof.Machine

open Sys2Proof

/-! ## Issuing a command -/

/-- An idle block accepts the transaction the encoder gives a command (R110). -/
theorem State.access_encodeOp {s : State} (hidle : s.status.busy = false) (i : Instr) :
    s.access (encodeOp i) = s.accept i.opc := by
  have hwrite : s.access (encodeOp i) = s.writeReg (encode i) .cmd := s.access_regWrite .cmd (encode i)
  rw [hwrite, State.writeReg, State.writeIdle_idle hidle, opcOfWord_encode]

/-- With no host access to come the engine runs the pending opcode (R111). -/
theorem step_of_pend {s : State} {opc : BitVec 4} (hpend : s.pend = some opc) (hhost : s.hostLine = none) :
    step s = exec (decodeOpc opc) s := by
  simp only [step, State.move, hpend, hhost]

/-- Settles O1: the opcode survives the encoder, and acceptance leaves it pending over the same host. -/
theorem encodedCommandDecodesBack : Obligations.EncodedCommandDecodesBack := by
  intro i hwf
  have hword := decodeWord_encode hwf
  refine ⟨?_, hword, ?_, decodeOpc_opc hwf, fun s hidle => ?_⟩
  · rw [encodeOp, decodeOp_cmdWrite, hword]
  · rw [decodeTableWord_toNat, hword]
  · rw [State.access_encodeOp hidle]
    refine ⟨rfl, fun hhost => ?_⟩
    have hnone : (s.accept i.opc).hostLine = none := hhost
    rw [step_of_pend rfl hnone, decodeOpc_opc hwf]

end Sys2Proof.Machine
end

section
/-! PROOFS. The host's polls of `STATUS` while the block is idle (O53, O54): `WAIT` and `BROK` of R68. -/

namespace Sys2Proof.Machine

open Sys2Proof

/-! ## A poll of an idle block -/

/-- With nothing pending the host makes its next line. -/
theorem step_of_hostLine {s : State} {l : HostLine} (hpend : s.pend = none) (hline : s.hostLine = some l) :
    step s = .next (s.hostStep l) := by
  simp only [step, State.move, hpend, hline]

/-- The state after a read of `STATUS` while idle, with the host at line `p`: the host keeps the word, and nothing else
of the block changes. -/
def State.polled (s : State) (p : Nat) : State :=
  { s with delay := s.delay - 1, host := ⟨s.host.script, p, s.status.pack :: s.host.reads⟩ }

theorem State.access_readStatus {s : State} (hidle : s.status.busy = false) :
    s.access readStatusOp = s.hostGot s.status.pack := by
  have hseen : s.regReadValue 32 RegName.status.offset = s.status.pack := State.statusSeen_idle hidle
  rw [readStatusOp, State.access, hseen, State.drawn, hidle]
  rfl

theorem State.hostStep_wait {s : State} (hidle : s.status.busy = false) :
    s.hostStep .wait = s.polled (if s.status.done then s.host.pos + 1 else s.host.pos) := by
  have hidle' : ({ s with delay := s.delay - 1 } : State).status.busy = false := hidle
  obtain ⟨-, hdone, -⟩ := s.status.pack_getLsbD_flags
  rw [State.hostStep, State.runLine, State.access_readStatus hidle', State.statusSeen_idle hidle', hdone]
  rfl

theorem State.hostStep_brok {s : State} (hidle : s.status.busy = false) (target : Nat) :
    s.hostStep (.brok target) = s.polled (if s.status.result = .ok then target else s.host.pos + 1) := by
  have hidle' : ({ s with delay := s.delay - 1 } : State).status.busy = false := hidle
  rw [State.hostStep, State.runLine, State.access_readStatus hidle', State.statusSeen_idle hidle',
    Status.pack_extract_result]
  simp only [ResultCode.code_eq_zero]
  rfl

/-! ## WAIT and BROK -/

/-- Settles O54: each line is one poll, which reads `DONE` and `RESULT` as they stand. -/
theorem waitAndBranchAfterCompletion : Obligations.WaitAndBranchAfterCompletion := by
  intro s hpend hidle
  refine ⟨fun hline hdone => ⟨_, step_of_hostLine hpend hline, ?_⟩,
    fun target hline => ⟨_, step_of_hostLine hpend hline, ?_⟩⟩
  · rw [State.hostStep_wait hidle, hdone]
    exact ⟨rfl, rfl⟩
  · rw [State.hostStep_brok hidle]
    exact ⟨rfl, rfl⟩

/-- Settles O53: a poll that reads `DONE = 0` leaves the host at its line and the block idle, so the next step is that
poll again. -/
theorem waitWithoutCommandNeverEnds : Obligations.WaitWithoutCommandNeverEnds := by
  intro s k hline hpend hidle hdone
  induction k generalizing s with
  | zero => exact ⟨s, rfl, rfl, rfl⟩
  | succ k ih =>
    have hpoll : s.hostStep .wait = s.polled s.host.pos := by
      rw [State.hostStep_wait hidle, hdone, if_neg Bool.false_ne_true]
    obtain ⟨t, hrun, hpos, hstatus⟩ := ih (s.polled s.host.pos) hline hpend hidle hdone
    exact ⟨t, by rw [run_succ_of_next (step_of_hostLine hpend hline), hpoll, hrun], hpos, hstatus⟩

end Sys2Proof.Machine
end

section
/-! PROOFS. Frames the host recorded (O29, O30, O39): which candidate a decode takes, when it appends its frame, and a
whole tape read back block for block. -/

namespace Sys2Proof.Machine

open Sys2Proof

/-! ## The scans' answers, from their closed forms -/

theorem LeastOrNone.eq_some {P : Nat → Prop} {r : Option Nat} {x : Nat} (h : LeastOrNone P r) (hx : Least P x) :
    r = some x := by
  cases r with
  | none => exact absurd hx.1 (h x)
  | some y => exact congrArg some (Least.unique h hx)

theorem LeastOrNone.eq_none {P : Nat → Prop} {r : Option Nat} (h : LeastOrNone P r) (hno : ∀ y, ¬ P y) : r = none := by
  cases r with
  | none => rfl
  | some y => exact absurd h.1 (hno y)

/-- PilotScan answers the least pilot end (R70). -/
theorem pilotScan_ok {m : Memory} {c L : Nat} {r : Option Nat} (hcL : c ≤ L) (h : pilotScan m c L = .ok r) :
    LeastOrNone (PilotAt m c L) r := by
  have hscan := pilotLoop_ok (c := c) (i := c) (count := 0) (by omega) (by decide)
    (fun j _ hj => absurd hj (by omega)) (.inl rfl) (fun q L' hq hp => by have := hp.1; omega) h
  rwa [Nat.add_sub_cancel' hcL] at hscan

/-- MagicScan answers the least index of the magic (R71). -/
theorem magicScan_ok {m : Memory} {c L : Nat} {r : Option Nat} (h : magicScan m c L = .ok r) :
    LeastOrNone (MagicAt m c L) r := by
  have hcand : (fun x => c ≤ x ∧ x < c + (L - c - (magicLen - 1)) ∧ m.slice x 5 = magic) = MagicAt m c L := by
    funext x
    have hbound : c ≤ x → (x < c + (L - c - (magicLen - 1)) ↔ x + 5 ≤ L) := by
      intro hx
      simp only [magicLen]
      omega
    exact propext (and_congr_right fun hx => and_congr_left' (hbound hx))
  exact hcand ▸ magicLoop_ok h

/-- Step 1 by the pilot path (R80). -/
theorem decodeAt_of_pilot {m : Memory} {c L p : Nat} (hw : m.Written c L) (hp : Least (PilotAt m c L) p) :
    decodeAt m c L = .ok (frameVerdict m L p true) := by
  obtain ⟨hcp, hpL, -⟩ := hp.1
  obtain ⟨r, hr⟩ := pilotScan_of_written hw
  obtain rfl := (pilotScan_ok (by omega) hr).eq_some hp
  rw [decodeAt, hr]
  exact decodeFrame_of_written fun j hj => hw j (by omega)

/-- Step 1 by the magic path (R80). -/
theorem decodeAt_of_magic {m : Memory} {c L i : Nat} (hw : m.Written c L) (hno : ∀ p, ¬ PilotAt m c L p)
    (hi : Least (MagicAt m c L) i) : decodeAt m c L = .ok (frameVerdict m L i false) := by
  obtain ⟨hci, hiL, -⟩ := hi.1
  obtain ⟨r, hr⟩ := pilotScan_of_written hw
  obtain rfl := (pilotScan_ok (by omega) hr).eq_none hno
  obtain ⟨q, hq⟩ := magicScan_of_written hw
  obtain rfl := (magicScan_ok hq).eq_some hi
  simp only [decodeAt, hr, hq]
  exact decodeFrame_of_written fun j hj => hw j (by omega)

/-! ## DECODE on a candidate -/

/-- A valid frame's verdict is a block with the frame's entry (R79, R87). -/
theorem frameVerdict_entry {m : Memory} {L s : Nat} (first : Bool) (h : m.ValidFrame L s) (hL : L < 2 ^ 32) :
    ∃ e, frameVerdict m L s first = .block e (s + m.rawLenAt L s) ∧ m.IsEntryOf L s first e :=
  ⟨_, frameVerdict_of_valid first h, isEntryOf_entryOf first h hL⟩

theorem exec_decode_of_block {s : State} {e : Entry} {next : Nat} (hr : s.InRange) (hfree : s.tableFull = false)
    (hd : decodeAt s.cap s.cursor.toNat s.bufLen.toNat = .ok (.block e next)) :
    exec .decode s = .next ((s.appendBlock e next).finish .ok) := by
  simp only [exec, execDecode, (State.rangeOK_iff s).2 hr, hd, hfree, if_true, Bool.false_eq_true, if_false]

theorem exec_decode_of_fail {s : State} {code : ResultCode} (hr : s.InRange)
    (hd : decodeAt s.cap s.cursor.toNat s.bufLen.toNat = .ok (.fail code)) :
    exec .decode s = .next (s.finish code) := by
  simp only [exec, execDecode, (State.rangeOK_iff s).2 hr, hd, if_true]

theorem State.tableFull_eq_false {s : State} (h : s.table.length < s.params.maxBlocks.toNat) : s.tableFull = false :=
  decide_eq_false (by omega)

/-- DECODE completes with `OK`, appends the entry of the frame at `i`, moves `CURSOR` behind its raw range and changes
nothing else (R90). -/
def State.DecodeAppends (s : State) (i : Nat) (first : Bool) : Prop :=
  ∃ t e, exec .decode s = .next t ∧ Completed s t .ok false CompFlags.none ∧ t.table = s.table ++ [e] ∧
    s.cap.IsEntryOf s.bufLen.toNat i first e ∧ t.cursor.toNat = i + s.cap.rawLenAt s.bufLen.toNat i ∧
    t.resultIndex = s.resultIndex ∧ t.csum = s.csum ∧ Untouched s t

/-- A candidate with a valid frame is appended. -/
theorem State.decodeAppends {s : State} {i : Nat} {first : Bool} (hr : s.InRange)
    (hfree : s.table.length < s.params.maxBlocks.toNat) (hvalid : s.cap.ValidFrame s.bufLen.toNat i)
    (hd : decodeAt s.cap s.cursor.toNat s.bufLen.toNat = .ok (frameVerdict s.cap s.bufLen.toNat i first)) :
    s.DecodeAppends i first := by
  obtain ⟨e, hverdict, hentry⟩ := frameVerdict_entry first hvalid s.bufLen.isLt
  rw [hverdict] at hd
  have hexec := exec_decode_of_block hr (State.tableFull_eq_false hfree) hd
  exact ⟨_, e, hexec, ⟨rfl, rfl, rfl, rfl, rfl, rfl, rfl⟩, rfl, hentry, State.appendBlock_cursor_toNat hd, rfl, rfl,
    (exec_next hexec).untouched⟩

/-- Settles O29: with no pilot the magic path takes the first magic. -/
theorem decodeTakesFirstFrame : Obligations.DecodeTakesFirstFrame :=
  fun _ _ hr hw hfree hno hi hvalid => State.decodeAppends hr hfree hvalid (decodeAt_of_magic hw hno hi)

/-! ## The pilot's length -/

/-- The first 256 bytes of a run of zeros are the first pilot, when the run starts at `c` or behind another byte and no
pilot ends before it (R70). -/
theorem least_pilotAt_of_run {m : Memory} {c d L : Nat} (hcd : c ≤ d) (hstart : d = c ∨ m.byteAt (d - 1) ≠ 0x00#8)
    (hnone : ∀ p, p ≤ d → ¬ PilotAt m c L p) (hzero : ∀ j, d ≤ j → j < d + 256 → m.byteAt j = 0x00#8)
    (hL : d + 256 ≤ L) : Least (PilotAt m c L) (d + 256) := by
  refine ⟨⟨by omega, hL, fun j hj => hzero j (by omega)⟩, fun q hq => ?_⟩
  by_contra hlt
  have hdq : d < q := Nat.lt_of_not_le fun hle => hnone q hle hq
  obtain ⟨hcq, -, hrun⟩ := hq
  exact hstart.elim (by omega) fun hbyte => hbyte (hrun (d - 1) (by omega) (by omega))

/-- The magic opens with `00 FF`. -/
theorem Memory.bytes_of_magic {m : Memory} {i : Nat} (h : m.slice i 5 = magic) :
    m.byteAt i = 0x00#8 ∧ m.byteAt (i + 1) = 0xFF#8 := by
  rw [Memory.slice_succ, Memory.slice_succ, magic, List.cons.injEq, List.cons.injEq] at h
  exact ⟨h.1, h.2.1⟩

/-- A candidate that is not at the magic has no valid header (R82). -/
theorem frameVerdict_invalidHeader {m : Memory} {L s : Nat} {first : Bool} (hlen : s + 10 ≤ L)
    (h : m.slice s 5 ≠ magic) : frameVerdict m L s first = .fail .invalidHeader := by
  rw [frameVerdict, if_neg (by omega), if_pos h]

/-- Settles O30: the first pilot ends at `d + 256` for every `k ≥ 255`, since the magic itself opens with a zero byte.
For `k = 256` the magic stands there; for `k = 255` its second byte does, and for `k ≥ 257` two zeros do. -/
theorem pilotMustBeExactly256 : Obligations.PilotMustBeExactly256 := by
  intro s d k hr hw
  dsimp only
  intro hcd hstart hnone hzero hmagic hmagicL hL
  obtain ⟨hopen, hsecond⟩ := Memory.bytes_of_magic hmagic
  have hzero' : ∀ j, d ≤ j → j ≤ d + k → s.cap.byteAt j = 0x00#8 := by
    intro j hj hjk
    rcases Nat.lt_or_eq_of_le hjk with hlt | rfl
    · exact hzero j hj hlt
    · exact hopen
  have hdecode (hk : 255 ≤ k) : decodeAt s.cap s.cursor.toNat s.bufLen.toNat =
      .ok (frameVerdict s.cap s.bufLen.toNat (d + 256) true) :=
    decodeAt_of_pilot hw (least_pilotAt_of_run hcd hstart hnone (fun j hj _ => hzero' j hj (by omega)) (by omega))
  refine ⟨fun hk hvalid hfree => State.decodeAppends hr hfree hvalid (hdecode (by omega)), fun hk => ?_⟩
  have hnot : s.cap.slice (d + 256) 5 ≠ magic := by
    intro hat
    obtain ⟨hat0, hat1⟩ := Memory.bytes_of_magic hat
    rcases hk with rfl | hk
    · exact absurd (hat0.symm.trans hsecond) (by decide)
    · exact absurd (hat1.symm.trans (hzero' _ (by omega) (by omega))) (by decide)
  have hfail := hdecode (by omega)
  rw [frameVerdict_invalidHeader (by omega) hnot] at hfail
  have hexec := exec_decode_of_fail hr hfail
  exact ⟨_, hexec, ⟨rfl, rfl, rfl, rfl, rfl, rfl, rfl⟩, ⟨rfl, rfl, rfl, rfl⟩, (exec_next hexec).untouched⟩

end Sys2Proof.Machine
end

section
/-! PROOFS. A tape read back (O39): the bytes of a frame where the capture holds it, the entry they decode to, and the
pass over the frames of a tape. -/

namespace Sys2Proof.Machine

open Sys2Proof

/-! ## Bytes held by the capture -/

/-- The capture holds these bytes from index `a` on. -/
def Memory.HoldsAt (m : Memory) (a : Nat) (bytes : List Byte) : Prop :=
  ∀ i, i < bytes.length → m.read (a + i) = bytes[i]?

theorem Memory.Holds.holdsAt_zero {m : Memory} {bytes : List Byte} (h : m.Holds bytes) : m.HoldsAt 0 bytes :=
  fun i hi => by rw [Nat.zero_add]; exact h i hi

theorem Memory.HoldsAt.left {m : Memory} {a : Nat} {xs ys : List Byte} (h : m.HoldsAt a (xs ++ ys)) :
    m.HoldsAt a xs := by
  intro i hi
  rw [h i (by rw [List.length_append]; omega), List.getElem?_append_left hi]

theorem Memory.HoldsAt.right {m : Memory} {a k : Nat} {xs ys : List Byte} (h : m.HoldsAt a (xs ++ ys))
    (hk : k = a + xs.length) : m.HoldsAt k ys := by
  intro i hi
  rw [hk, Nat.add_assoc, h _ (by rw [List.length_append]; omega), List.getElem?_append_right (by omega),
    Nat.add_sub_cancel_left]

theorem Memory.HoldsAt.byteAt {m : Memory} {a i : Nat} {bytes : List Byte} {b : Byte} (h : m.HoldsAt a bytes)
    (hb : bytes[i]? = some b) : m.byteAt (a + i) = b := by
  obtain ⟨hi, -⟩ := List.getElem?_eq_some_iff.1 hb
  rw [Memory.byteAt, h i hi, hb, Option.getD_some]

theorem Memory.HoldsAt.written {m : Memory} {a : Nat} {bytes : List Byte} (h : m.HoldsAt a bytes) :
    m.Written a (a + bytes.length) := by
  intro j hj hj'
  have hread := h (j - a) (by omega)
  rw [Nat.add_sub_cancel' hj] at hread
  rw [hread, List.getElem?_eq_getElem (by omega), Option.isSome_some]

theorem Memory.HoldsAt.slice {m : Memory} {a : Nat} {bytes : List Byte} (h : m.HoldsAt a bytes) :
    m.slice a bytes.length = bytes := by
  refine List.ext_getElem (m.slice_length _ _) fun j _ hj => ?_
  simp only [Memory.slice, List.getElem_map, List.getElem_range]
  exact h.byteAt (List.getElem?_eq_getElem hj)

/-! ## The frame of a block -/

/-- The ten bytes before a block's data (R53). -/
def TapeBlock.header (b : TapeBlock) : List Byte :=
  [0x00#8, 0xFF#8, 0xFF#8, 0xFF#8, 0xFF#8, b.loadLo, b.loadHi, b.sizeByte, b.blkNum,
    checkByte [b.loadLo, b.loadHi, b.sizeByte, b.blkNum]]

theorem TapeBlock.frame_eq (b : TapeBlock) :
    b.frame = b.header ++ (b.data ++ (checkByte b.data :: List.replicate 10 0x00#8)) := by
  rw [TapeBlock.frame, List.append_assoc, List.append_assoc]
  rfl

theorem TapeBlock.frame_length (b : TapeBlock) : b.frame.length = 21 + b.data.length := by
  simp only [TapeBlock.frame_eq, TapeBlock.header, List.length_append, List.length_cons, List.length_nil,
    List.length_replicate]
  omega

theorem checkByte_toNat (bs : List Byte) : (checkByte bs).toNat = sumMod256 bs :=
  ofNat_toNat_lt (Nat.mod_lt _ (by decide))

/-- The size byte stands for the number of data bytes (R54). -/
theorem TapeBlock.Wf.dataSizeOf_sizeByte {b : TapeBlock} (h : b.Wf) : dataSizeOf b.sizeByte = b.data.length := by
  obtain ⟨hmin, hmax⟩ := h
  have hbyte : b.sizeByte.toNat = b.data.length % 256 := BitVec.toNat_ofNat _ _
  rw [dataSizeOf, maxData]
  split
  · rename_i hzero
    rw [hzero, BitVec.toNat_ofNat] at hbyte
    omega
  · rename_i hzero
    have hne : b.sizeByte.toNat ≠ 0 := BitVec.toNat_ne.1 hzero
    omega

section
variable {m : Memory} {b : TapeBlock} {a L : Nat} {first : Bool} {e : Entry}

/-- The parts of a frame the capture holds: header, data and data checksum. -/
theorem Memory.HoldsAt.frame_parts (h : m.HoldsAt a b.frame) :
    m.HoldsAt a b.header ∧ m.slice (a + 10) b.data.length = b.data ∧
      m.byteAt (a + 10 + b.data.length) = checkByte b.data := by
  rw [b.frame_eq] at h
  have htail : m.HoldsAt (a + 10) (b.data ++ (checkByte b.data :: List.replicate 10 0x00#8)) := h.right rfl
  exact ⟨h.left, htail.left.slice, (htail.right rfl).byteAt (i := 0) rfl⟩

theorem Memory.HoldsAt.sizeAt (h : m.HoldsAt a b.frame) (hb : b.Wf) : m.sizeAt a = b.data.length := by
  obtain ⟨hheader, -⟩ := h.frame_parts
  rw [sizeAt_eq, hheader.byteAt (i := 7) rfl, hb.dataSizeOf_sizeByte]

/-- A frame the capture holds within the buffer is valid (R61). -/
theorem Memory.HoldsAt.validFrame (h : m.HoldsAt a b.frame) (hb : b.Wf) (hL : a + b.frame.length ≤ L) :
    m.ValidFrame L a := by
  obtain ⟨hheader, hdata, hcheck⟩ := h.frame_parts
  have hsize := h.sizeAt hb
  have hcovered : m.slice (a + 5) 4 = [b.loadLo, b.loadHi, b.sizeByte, b.blkNum] :=
    ((hheader.right (xs := magic) rfl).left (xs := [b.loadLo, b.loadHi, b.sizeByte, b.blkNum])).slice
  rw [b.frame_length] at hL
  refine ⟨by omega, (hheader.left (xs := magic)).slice, ?_, ?_⟩
  · rw [Memory.HeaderOk, hcovered, hheader.byteAt (i := 9) rfl, checkByte_toNat]
  · rw [Memory.DataOk, hsize, hdata, hcheck, checkByte_toNat]

theorem Memory.HoldsAt.rawLenAt (h : m.HoldsAt a b.frame) (hb : b.Wf) (hL : a + b.frame.length ≤ L) :
    m.rawLenAt L a = b.frame.length := by
  rw [b.frame_length] at hL ⊢
  rw [Memory.rawLenAt, h.sizeAt hb]
  omega

/-! ## The entry of a block -/

/-- Entry `e` gives the block back: load address, block number, size, payload, and `FIRST` as told. -/
def TapeBlock.ReadBack (b : TapeBlock) (m : Memory) (first : Bool) (e : Entry) : Prop :=
  e.load.toNat = b.loadLo.toNat + 256 * b.loadHi.toNat ∧ e.blkNum = b.blkNum ∧ e.dataSize.toNat = b.data.length ∧
    m.slice (e.start.toNat + 10) e.dataSize.toNat = b.data ∧ e.first = first

theorem Memory.IsEntryOf.readBack (he : m.IsEntryOf L a first e) (h : m.HoldsAt a b.frame) (hb : b.Wf) :
    b.ReadBack m first e := by
  obtain ⟨hstart, -, hload, -, hsize, hblk, -, -, hfirst⟩ := he
  obtain ⟨hheader, hdata, -⟩ := h.frame_parts
  rw [h.sizeAt hb] at hsize
  refine ⟨?_, ?_, hsize, ?_, hfirst⟩
  · rw [hload, hheader.byteAt (i := 5) rfl, hheader.byteAt (i := 6) rfl]
  · rw [hblk, hheader.byteAt (i := 8) rfl]
  · rw [hstart, hsize, hdata]

/-- The verdict on a frame the capture holds: its block, and the index behind the frame. -/
theorem frameVerdict_of_frame (first : Bool) (h : m.HoldsAt a b.frame) (hb : b.Wf) (hL : a + b.frame.length ≤ L)
    (hL' : L < 2 ^ 32) :
    ∃ e, frameVerdict m L a first = .block e (a + b.frame.length) ∧ b.ReadBack m first e := by
  obtain ⟨e, hverdict, he⟩ := frameVerdict_entry first (h.validFrame hb hL) hL'
  rw [h.rawLenAt hb hL] at hverdict
  exact ⟨e, hverdict, he.readBack h hb⟩

end

/-! ## One round of the loop -/

section
variable {s : State} {n : Nat}

theorem readLoop_of_fail {code : ResultCode} (hn : s.bufLen.toNat - s.cursor.toNat ≤ n)
    (hd : decodeAt s.cap s.cursor.toNat s.bufLen.toNat = .ok (.fail code)) : readLoop s n = .ok (s, code) := by
  cases n with
  | zero =>
    rw [decodeAt_empty (by omega)] at hd
    cases hd
    rfl
  | succ n => rw [readLoop, hd]

/-- With a block left to decode the bound is not used up (R93). -/
theorem readLoop_of_block {e : Entry} {next : Nat} (hn : s.bufLen.toNat - s.cursor.toNat ≤ n)
    (hd : decodeAt s.cap s.cursor.toNat s.bufLen.toNat = .ok (.block e next)) :
    readLoop s n = if s.tableFull then .ok (s, .tableFull) else readLoop (s.appendBlock e next) (n - 1) := by
  have hmove := decodeAt_block_next hd
  obtain ⟨n, rfl⟩ : ∃ k, n = k + 1 := Nat.exists_eq_succ_of_ne_zero (by omega)
  rw [readLoop, hd]
  rfl

end

/-! ## The pass over a tape -/

/-- From state `s` the loop reads the blocks `bs` back in order, as many as the table has room for, and stops with
`NO_MORE_BLOCKS`, or `TABLE_FULL` when there are more. `first` is the `FIRST` of the first of them. -/
def State.ReadsTape (s : State) (n : Nat) (first : Bool) (bs : List TapeBlock) : Prop :=
  ∃ u es,
    readLoop s n =
      .ok (u, if s.table.length + bs.length ≤ s.params.maxBlocks.toNat then .noMoreBlocks else .tableFull) ∧
    u.table = s.table ++ es ∧ es.length = min bs.length (s.params.maxBlocks.toNat - s.table.length) ∧
    ∀ j e, es[j]? = some e → ∃ b : TapeBlock, bs[j]? = some b ∧ b.ReadBack s.cap (first && decide (j = 0)) e

/-- One more block in front: it is appended and the rest is read behind it, unless the table is full. The rest has
fewer bytes to go and room for the appended entry. -/
theorem State.readsTape_cons {s : State} {n next : Nat} {first : Bool} {b : TapeBlock} {bs : List TapeBlock} {e : Entry}
    (hn : s.bufLen.toNat - s.cursor.toNat ≤ n) (hroom : s.table.length ≤ s.params.maxBlocks.toNat)
    (hd : decodeAt s.cap s.cursor.toNat s.bufLen.toNat = .ok (.block e next)) (he : b.ReadBack s.cap first e)
    (hrest : (s.appendBlock e next).bufLen.toNat - (s.appendBlock e next).cursor.toNat ≤ n - 1 →
      (s.appendBlock e next).table.length ≤ (s.appendBlock e next).params.maxBlocks.toNat →
      (s.appendBlock e next).ReadsTape (n - 1) false bs) :
    s.ReadsTape n first (b :: bs) := by
  have hloop := readLoop_of_block hn hd
  have hmove := decodeAt_block_next hd
  rw [State.appendBlock_cursor_toNat hd, State.appendBlock_bufLen, State.appendBlock_params,
    State.appendBlock_table, List.length_append, List.length_singleton] at hrest
  rcases Nat.lt_or_eq_of_le hroom with hfree | hfull
  · obtain ⟨u, es, hpass, htable, hlen, hes⟩ := hrest (by omega) hfree
    rw [State.appendBlock_table, State.appendBlock_params, List.length_append, List.length_singleton] at hpass hlen
    rw [State.appendBlock_table] at htable
    refine ⟨u, e :: es, ?_, ?_, ?_, ?_⟩
    · rw [hloop, State.tableFull_eq_false hfree, if_neg Bool.false_ne_true, hpass, List.length_cons,
        Nat.add_right_comm, Nat.add_assoc]
    · rw [htable, List.append_assoc, List.singleton_append]
    · rw [List.length_cons, List.length_cons, hlen]
      omega
    · intro j x hx
      cases j with
      | zero =>
        obtain rfl : e = x := by simpa using hx
        exact ⟨b, rfl, by simpa using he⟩
      | succ j =>
        obtain ⟨c, hc, hback⟩ := hes j x hx
        exact ⟨c, hc, by simpa using hback⟩
  · refine ⟨s, [], ?_, (List.append_nil _).symm, ?_, nofun⟩
    · rw [hloop, (State.tableFull_iff s).2 hfull, if_pos rfl, if_neg (by rw [List.length_cons]; omega)]
    · rw [hfull, Nat.sub_self, Nat.min_zero, List.length_nil]

/-- What is left of a tape from `CURSOR` on: the frames of `bs` up to `BUF_LEN`, and no pilot among them. -/
structure State.FramesLeft (s : State) (bs : List TapeBlock) : Prop where
  holds : s.cap.HoldsAt s.cursor.toNat (bs.flatMap TapeBlock.frame)
  bufLen : s.bufLen.toNat = s.cursor.toNat + (bs.flatMap TapeBlock.frame).length
  noPilot : ∀ p, ¬ PilotAt s.cap s.cursor.toNat s.bufLen.toNat p

/-- A pilot of a later remaining buffer is one of the earlier buffer too. -/
theorem PilotAt.of_le {m : Memory} {c c' L p : Nat} (h : PilotAt m c' L p) (hc : c ≤ c') : PilotAt m c L p := by
  obtain ⟨hlow, hhigh⟩ := h
  exact ⟨by omega, hhigh⟩

section
variable {s : State} {b : TapeBlock} {bs : List TapeBlock}

/-- The next frame of the tape is decoded by the magic path. -/
theorem State.FramesLeft.decodeAt (h : s.FramesLeft (b :: bs)) (hb : b.Wf) :
    ∃ e, decodeAt s.cap s.cursor.toNat s.bufLen.toNat = .ok (.block e (s.cursor.toNat + b.frame.length)) ∧
      b.ReadBack s.cap false e := by
  obtain ⟨hholds, hL, hno⟩ := h
  have hwritten : s.cap.Written s.cursor.toNat s.bufLen.toNat := hL ▸ hholds.written
  rw [List.flatMap_cons, List.length_append] at hL
  rw [List.flatMap_cons] at hholds
  have hframe := hholds.left
  have hfits : s.cursor.toNat + b.frame.length ≤ s.bufLen.toNat := by omega
  obtain ⟨e, hverdict, hback⟩ := frameVerdict_of_frame false hframe hb hfits s.bufLen.isLt
  obtain ⟨hvalid, hmagic, -⟩ := hframe.validFrame hb hfits
  have hleast : Least (MagicAt s.cap s.cursor.toNat s.bufLen.toNat) s.cursor.toNat :=
    ⟨⟨Nat.le_refl _, by omega, hmagic⟩, fun _ hx => hx.1⟩
  exact ⟨e, by rw [decodeAt_of_magic hwritten hno hleast, hverdict], hback⟩

/-- Behind a decoded block the rest of the tape is left. -/
theorem State.framesLeft_appendBlock {a : Nat} {e : Entry}
    (hholds : s.cap.HoldsAt a ((b :: bs).flatMap TapeBlock.frame))
    (hL : s.bufLen.toNat = a + ((b :: bs).flatMap TapeBlock.frame).length)
    (hno : ∀ p, ¬ PilotAt s.cap (a + b.frame.length) s.bufLen.toNat p) :
    (s.appendBlock e (a + b.frame.length)).FramesLeft bs := by
  rw [List.flatMap_cons] at hholds hL
  rw [List.length_append] at hL
  have hcursor : (s.appendBlock e (a + b.frame.length)).cursor.toNat = a + b.frame.length :=
    ofNat_toNat_lt (by have := s.bufLen.isLt; omega)
  refine ⟨?_, ?_, ?_⟩
  · rw [hcursor]; exact hholds.right rfl
  · rw [hcursor, State.appendBlock_bufLen]; omega
  · rw [hcursor]; exact hno

end

/-- The pass over the frames left of a tape reads every block back. -/
theorem State.FramesLeft.readsTape {bs : List TapeBlock} (hwf : ∀ b ∈ bs, b.Wf) {s : State} {n : Nat}
    (h : s.FramesLeft bs) (hn : s.bufLen.toNat - s.cursor.toNat ≤ n)
    (hroom : s.table.length ≤ s.params.maxBlocks.toNat) : s.ReadsTape n false bs := by
  induction bs generalizing s n with
  | nil =>
    obtain ⟨-, hL, -⟩ := h
    have hend : s.bufLen.toNat = s.cursor.toNat := hL
    have hpass := readLoop_of_fail hn (decodeAt_empty (m := s.cap) (Nat.le_of_eq hend))
    exact ⟨s, [], by rw [hpass, List.length_nil, Nat.add_zero, if_pos hroom], (List.append_nil _).symm,
      (Nat.zero_min _).symm, nofun⟩
  | cons b bs ih =>
    obtain ⟨e, hd, hback⟩ := h.decodeAt (hwf b List.mem_cons_self)
    have hleft : (s.appendBlock e (s.cursor.toNat + b.frame.length)).FramesLeft bs :=
      State.framesLeft_appendBlock h.holds h.bufLen fun p hp => h.noPilot p (hp.of_le (Nat.le_add_right _ _))
    exact State.readsTape_cons hn hroom hd hback (ih (fun c hc => hwf c (List.mem_cons_of_mem _ hc)) hleft)

/-! ## The whole tape -/

/-- The first frame of a tape with a pilot is decoded by the pilot path: the pilot's 256 zeros end at index 256. -/
theorem decodeAt_pilotTape {m : Memory} {L : Nat} {b : TapeBlock} {rest : List Byte} (hb : b.Wf)
    (hholds : m.HoldsAt 0 (List.replicate 256 0x00#8 ++ (b.frame ++ rest)))
    (hL : L = 256 + (b.frame ++ rest).length) (hL' : L < 2 ^ 32) :
    ∃ e, decodeAt m 0 L = .ok (.block e (256 + b.frame.length)) ∧ b.ReadBack m true e := by
  have hwritten := hholds.written
  rw [List.length_append, List.length_replicate, ← hL, Nat.zero_add] at hwritten
  have hframe : m.HoldsAt 256 b.frame := (hholds.right (by rw [List.length_replicate])).left
  rw [List.length_append] at hL
  have hzero : ∀ j, j < 256 → m.byteAt j = 0x00#8 := by
    intro j hj
    have hbyte := hholds.left.byteAt (i := j) (List.getElem?_replicate_of_lt hj)
    rwa [Nat.zero_add] at hbyte
  have hleast : Least (PilotAt m 0 L) 256 :=
    ⟨⟨Nat.le_refl _, by omega, fun j _ hj => hzero j hj⟩, fun p hp => by have := hp.1; omega⟩
  obtain ⟨e, hverdict, hback⟩ := frameVerdict_of_frame true hframe hb (by omega) hL'
  exact ⟨e, by rw [decodeAt_of_pilot hwritten hleast, hverdict], hback⟩

/-- The pass from index 0 over a whole tape, with or without the pilot. -/
theorem State.readsTape_of_tapeBytes {s : State} {pilot : Bool} {bs : List TapeBlock} (hne : bs ≠ [])
    (hwf : ∀ b ∈ bs, b.Wf) (hcursor : s.cursor = 0#32) (htable : s.table = [])
    (hL : s.bufLen.toNat = (tapeBytes pilot bs).length) (hholds : s.cap.HoldsAt 0 (tapeBytes pilot bs))
    (hno : ∀ p, ¬ PilotAt s.cap (if pilot then 257 else 0) s.bufLen.toNat p) :
    s.ReadsTape (s.bufLen.toNat - s.cursor.toNat) pilot bs := by
  have hzero : s.cursor.toNat = 0 := by rw [hcursor]; rfl
  have hroom : s.table.length ≤ s.params.maxBlocks.toNat := by rw [htable]; exact Nat.zero_le _
  cases pilot with
  | false =>
    have hleft : s.FramesLeft bs := ⟨hzero ▸ hholds, by rw [hzero, Nat.zero_add]; exact hL, hzero ▸ hno⟩
    exact hleft.readsTape hwf (Nat.le_refl _) hroom
  | true =>
    obtain ⟨b, bs, rfl⟩ := List.exists_cons_of_ne_nil hne
    have htape : tapeBytes true (b :: bs) =
      List.replicate 256 0x00#8 ++ (b.frame ++ bs.flatMap TapeBlock.frame) := rfl
    rw [htape] at hL hholds
    rw [List.length_append, List.length_replicate] at hL
    obtain ⟨e, hd, hback⟩ := decodeAt_pilotTape (hwf b List.mem_cons_self) hholds hL s.bufLen.isLt
    rw [← hzero] at hd
    have hframes : s.cap.HoldsAt 256 (b.frame ++ bs.flatMap TapeBlock.frame) :=
      hholds.right (by rw [List.length_replicate])
    have hleft : (s.appendBlock e (256 + b.frame.length)).FramesLeft bs :=
      State.framesLeft_appendBlock hframes hL fun p hp =>
        hno p (hp.of_le (by rw [if_pos rfl, b.frame_length]; omega))
    exact State.readsTape_cons (Nat.le_refl _) hroom hd hback
      (hleft.readsTape fun c hc => hwf c (List.mem_cons_of_mem _ hc))

theorem exec_readBlocks_of_pass {s u : State} {code : ResultCode} (hr : s.InRange)
    (hpass : readLoop { s with table := [] } (s.bufLen.toNat - s.cursor.toNat) = .ok (u, code)) :
    exec .readBlocks s = .next (u.finish code) := by
  simp only [exec, execReadBlocks, (State.rangeOK_iff s).2 hr, hpass, if_true]

/-- Settles O39, by induction over the tape (`State.FramesLeft.readsTape`); the pilot only changes how its first frame
is reached. -/
theorem syntheticTapeReadsBack : Obligations.SyntheticTapeReadsBack := by
  intro s pilot bs hne hwf hcursor hL hfits hholds hno
  have hr : s.InRange := ⟨hfits, by rw [hcursor]; exact Nat.zero_le _⟩
  obtain ⟨u, es, hpass, htable, hlen, hes⟩ := State.readsTape_of_tapeBytes (s := { s with table := [] }) hne hwf hcursor
    rfl hL hholds.holdsAt_zero hno
  rw [List.nil_append] at htable
  refine ⟨_, exec_readBlocks_of_pass hr hpass, ?_, ?_, ?_⟩
  · rw [State.finish_table, htable, hlen]
    rfl
  · rw [State.finish_status, List.length_nil, Nat.zero_add]
  · rw [State.finish_table, htable]
    intro j e he
    obtain ⟨b, hb, hload, hblk, hsize, hdata, hfirst⟩ := hes j e he
    exact ⟨b, hb, hload, hblk, hsize, hdata, hfirst⟩

end Sys2Proof.Machine
end

section
/-! PROOFS. The scans and their commands (O20 to O23), and the pilot path's precedence over earlier frames (O31). -/

namespace Sys2Proof.Machine

open Sys2Proof

/-! ## The scans' closed forms, on every range -/

theorem pilotScan_empty {m : Memory} {c L : Nat} (h : L ≤ c) : pilotScan m c L = .ok none := by
  rw [pilotScan, Nat.sub_eq_zero_of_le h]
  rfl

theorem PilotAt.bounds {m : Memory} {c L p : Nat} (h : PilotAt m c L p) : c + 256 ≤ p ∧ p ≤ L := by
  obtain ⟨hlow, hhigh, -⟩ := h
  exact ⟨hlow, hhigh⟩

/-- `pilotScan_ok` without a bound on `c`: an empty range holds no pilot. -/
theorem pilotScan_leastOrNone {m : Memory} {c L : Nat} {r : Option Nat} (h : pilotScan m c L = .ok r) :
    LeastOrNone (PilotAt m c L) r := by
  rcases Nat.le_total c L with hcL | hLc
  · exact pilotScan_ok hcL h
  · rw [pilotScan_empty hLc] at h
    cases h
    exact fun p hp => by have := hp.bounds; omega

/-- A pilot with one more zero in front of it, still inside the range, ends one byte earlier too. -/
theorem PilotAt.pred {m : Memory} {c L p : Nat} (h : PilotAt m c L p) (hne : p - 256 ≠ c)
    (hzero : m.byteAt (p - 257) = 0x00#8) : PilotAt m c L (p - 1) := by
  obtain ⟨hlow, hhigh, hrun⟩ := h
  refine ⟨by omega, by omega, fun j hj hj' => ?_⟩
  rcases Nat.lt_or_ge j (p - 256) with hfront | hinside
  · have hpred : j = p - 257 := by omega
    rw [hpred, hzero]
  · exact hrun j hinside (by omega)

/-- The first pilot is the first 256 bytes of its run of zeros. -/
theorem Least.pilot_starts_run {m : Memory} {c L p : Nat} (h : Least (PilotAt m c L) p) :
    p - 256 = c ∨ m.byteAt (p - 257) ≠ 0x00#8 := by
  by_contra! hrun
  obtain ⟨hne, hzero⟩ := hrun
  have hearlier : p ≤ p - 1 := h.2 _ (h.1.pred hne hzero)
  have := h.1.bounds
  omega

/-- Settles O20: the least pilot end is where its run of zeros has its 256th, since a pilot one byte earlier would end
before it (`PilotAt.pred`). -/
theorem pilotScanFindsLeastPilot : Obligations.PilotScanFindsLeastPilot := by
  refine fun m c L => ⟨pilotScan_of_written, fun r h => ?_⟩
  have hleast := pilotScan_leastOrNone h
  refine ⟨hleast, fun hshort => hleast.eq_none fun p hp => by have := hp.bounds; omega, ?_⟩
  rintro p rfl
  have hp : Least (PilotAt m c L) p := hleast
  obtain ⟨hlow, hhigh, hrun⟩ := hp.1
  exact ⟨hlow, hhigh, hrun, hp.pilot_starts_run⟩

/-- Settles O21: the scan's candidates are the indices with five bytes left, of which a short range has none. -/
theorem magicScanFindsLeastMagic : Obligations.MagicScanFindsLeastMagic := by
  refine fun m c L => ⟨magicScan_of_written, fun r h => ⟨magicScan_ok h, fun hshort => ?_⟩⟩
  refine (magicScan_ok h).eq_none ?_
  rintro i ⟨hlow, hhigh, -⟩
  omega

/-! ## The scan commands -/

theorem exec_findPilot_of_scan {s : State} {r : Option Nat} (hr : s.InRange)
    (hscan : pilotScan s.cap s.cursor.toNat s.bufLen.toNat = .ok r) : exec .findPilot s = .next (s.scanDone r) := by
  simp only [exec, execFindPilot, (State.rangeOK_iff s).2 hr, hscan, if_true]

theorem exec_seekHeader_of_scan {s : State} {r : Option Nat} (hr : s.InRange)
    (hscan : magicScan s.cap s.cursor.toNat s.bufLen.toNat = .ok r) : exec .seekHeader s = .next (s.scanDone r) := by
  simp only [exec, execSeekHeader, (State.rangeOK_iff s).2 hr, hscan, if_true]

theorem indexOrZero_toNat {r : Option Nat} (h : ∀ x, r = some x → x < 2 ^ 32) : (indexOrZero r).toNat = r.getD 0 := by
  cases r with
  | none => rfl
  | some x => exact ofNat_toNat_lt (h x rfl)

/-- A command that ends with a scan's answer reports it, as long as what it looks for ends inside the buffer, and moves
nothing (R74, R75). -/
theorem scanDone_reports {s : State} {i : Instr} {r : Option Nat} {P : Nat → Prop}
    (hexec : exec i s = .next (s.scanDone r)) (hleast : LeastOrNone P r) (hbound : ∀ x, P x → x ≤ s.bufLen.toNat) :
    ∃ t r, exec i s = .next t ∧ LeastOrNone P r ∧ Completed s t .ok r.isSome CompFlags.none ∧
      t.resultIndex.toNat = r.getD 0 ∧ t.cursor = s.cursor ∧ t.csum = s.csum ∧ t.table = s.table ∧ Untouched s t := by
  have hfits : ∀ x, r = some x → x < 2 ^ 32 := by
    rintro x rfl
    exact Nat.lt_of_le_of_lt (hbound x hleast.1) s.bufLen.isLt
  exact ⟨_, r, hexec, hleast, ⟨rfl, rfl, rfl, rfl, rfl, rfl, rfl⟩, indexOrZero_toNat hfits, rfl, rfl, rfl,
    (exec_next hexec).untouched⟩

/-- A command that raises completes with that code, `FOUND` 0 and all else unchanged (R10). -/
theorem raise_reports {s : State} {i : Instr} {code : ResultCode} (hexec : exec i s = .next (s.raise code)) :
    ∃ t, exec i s = .next t ∧ Completed s t code false CompFlags.none ∧ ResultsKept s t ∧ Untouched s t :=
  ⟨_, hexec, ⟨rfl, rfl, rfl, rfl, rfl, rfl, rfl⟩, ⟨rfl, rfl, rfl, rfl⟩, (exec_next hexec).untouched⟩

/-- Settles O22: a pilot in range ends at or before `BUF_LEN`, so `RESULT_INDEX` holds it. -/
theorem findPilotReportsFirstPilot : Obligations.FindPilotReportsFirstPilot := by
  refine ⟨fun s hr hw => ?_, fun s hr => ?_⟩
  · obtain ⟨r, hscan⟩ := pilotScan_of_written hw
    exact scanDone_reports (exec_findPilot_of_scan hr hscan) (pilotScan_leastOrNone hscan) fun p hp => hp.bounds.2
  · obtain ⟨hexec, -⟩ := exec_out hr
    exact raise_reports hexec

/-- Settles O23: a magic in range starts before `BUF_LEN`, so `RESULT_INDEX` holds it. -/
theorem seekHeaderReportsFirstMagic : Obligations.SeekHeaderReportsFirstMagic := by
  refine ⟨fun s hr hw => ?_, fun s hr => ?_⟩
  · obtain ⟨r, hscan⟩ := magicScan_of_written hw
    refine scanDone_reports (exec_seekHeader_of_scan hr hscan) (magicScan_ok hscan) ?_
    rintro i ⟨-, hhigh, -⟩
    omega
  · obtain ⟨-, hexec, -⟩ := exec_out hr
    exact raise_reports hexec

/-! ## The pilot path goes first -/

/-- Settles O31: the scan for a pilot answers `p`, so the decode took the pilot path (R80) and its block is the frame
at `p`. -/
theorem laterPilotSkipsEarlierFrames : Obligations.LaterPilotSkipsEarlierFrames := by
  intro m c L p next e hL hp hd
  have hscan : ∀ r, pilotScan m c L = .ok r → r = some p := fun r h => (pilotScan_leastOrNone h).eq_some hp
  rcases decodeAt_ok hd with ⟨q, hq, hverdict⟩ | ⟨_, hnone, -⟩ | ⟨hnone, -⟩
  · obtain rfl : q = p := Option.some.inj (hscan _ hq)
    obtain ⟨hvalid, -, rfl⟩ := frameVerdict_block hverdict.symm
    obtain ⟨hstart, -, -, -, -, -, -, -, hfirst⟩ := isEntryOf_entryOf true hvalid hL
    exact ⟨hstart, hfirst⟩
  · cases hscan _ hnone
  · cases hscan _ hnone

end Sys2Proof.Machine
end

section
/-! PROOFS. The checksum and CSUM (O17 to O19), the block decoder and DECODE (O24 to O28, O32), and a pass of READ_BLOCKS
run again (O38). -/

namespace Sys2Proof.Machine

open Sys2Proof

/-! ## The rollover checksum -/

theorem rollover_toNat (bs : List Byte) : (rollover bs).toNat = sumMod256 bs :=
  ((rollover_eq_iff bs _).1 rfl).symm

theorem rolloverLoop_zero (bs : List Byte) : rolloverLoop 0 bs = sumMod256 bs := by
  rw [rolloverLoop_eq bs (by decide), Nat.zero_add]
  rfl

theorem sumMod256_lt (bs : List Byte) : sumMod256 bs < 256 := Nat.mod_lt _ (by decide)

/-- Settles O17: both the loop and the accumulator are the sum mod 256. -/
theorem rolloverIsSumModulo256 : Obligations.RolloverIsSumModulo256 := by
  refine ⟨fun bs => ?_, rfl⟩
  rw [rolloverLoop_zero, rollover_toNat]
  exact ⟨rfl, Nat.le_of_lt_succ (sumMod256_lt bs), rfl⟩

/-- The accumulator is the sum in the ring of bytes, whose addition discards the carry (R77). -/
theorem rollover_eq_sum (bs : List Byte) : rollover bs = bs.sum := List.sum_eq_foldl.symm

theorem rollover_append (xs ys : List Byte) : rollover (xs ++ ys) = rollover xs + rollover ys := by
  simp only [rollover_eq_sum, List.sum_append]

theorem rollover_cons (b : Byte) (bs : List Byte) : rollover (b :: bs) = b + rollover bs := by
  simp only [rollover_eq_sum, List.sum_cons]

/-- Of two bytes in a list only their sum counts. -/
theorem rollover_two_bytes (xs ys zs : List Byte) (a b : Byte) :
    rollover (xs ++ a :: (ys ++ b :: zs)) = (a + b) + (rollover xs + rollover ys + rollover zs) := by
  simp only [rollover_append, rollover_cons]
  ring

/-- Settles O18: the checksum is a sum in a commutative group, so it forgets the order, cancels what is unchanged, and
sees two changed bytes only through their sum. -/
theorem rolloverDetectsSingleChanges : Obligations.RolloverDetectsSingleChanges := by
  refine ⟨fun bs b => ?_, fun bs cs hperm => ?_, fun xs ys a b => ?_, fun xs ys zs a b c d hsum => ?_,
    fun xs ys zs a b => ?_⟩
  · simp only [rollover_eq_sum, List.sum_append, List.sum_singleton]
  · rw [rollover_eq_sum, rollover_eq_sum, hperm.sum_eq]
  · rw [rollover_append, rollover_append, rollover_cons, rollover_cons, add_right_inj, add_left_inj]
  · rw [rollover_two_bytes, rollover_two_bytes, hsum]
  · rw [rollover_two_bytes, rollover_two_bytes, add_comm a b]

/-! ## CSUM -/

theorem exec_csum_of_written {s : State} (hr : s.CsumInRange)
    (hw : s.cap.Written s.argAddr.toNat (s.argAddr.toNat + s.argLen.toNat)) :
    exec .csum s =
      .next (State.finish { s with csum := rollover (s.cap.slice s.argAddr.toNat s.argLen.toNat) } .ok) := by
  simp only [exec, execCsum, (State.csumRangeOK_iff s).2 hr, Memory.fetchRange_of_written hw, if_true]

theorem State.readReg_csum_toNat (s : State) : (s.readReg .csum).toNat = s.csum.toNat :=
  BitVec.toNat_setWidth_of_le (by decide)

/-- Settles O19: in range the checksum of the slice goes to `CSUM`; out of range the command raises. -/
theorem csumSumsTheRange : Obligations.CsumSumsTheRange := by
  refine ⟨fun s hr hw => ?_, fun s hr => raise_reports (exec_csum_out hr)⟩
  have hexec := exec_csum_of_written hr hw
  refine ⟨_, hexec, ⟨rfl, rfl, rfl, rfl, rfl, rfl, rfl⟩, ?_, rfl, rfl, rfl, (exec_next hexec).untouched⟩
  rw [State.readReg_csum_toNat, State.finish_csum, rollover_toNat]

/-! ## The steps of a decode -/

/-- Step 1 without a candidate (R80). -/
theorem decodeAt_of_neither {m : Memory} {c L : Nat} (hw : m.Written c L) (hnoPilot : ∀ p, ¬ PilotAt m c L p)
    (hnoMagic : ∀ i, ¬ MagicAt m c L i) : decodeAt m c L = .ok (.fail .noMoreBlocks) := by
  obtain ⟨r, hr⟩ := pilotScan_of_written hw
  obtain ⟨q, hq⟩ := magicScan_of_written hw
  obtain rfl := (pilotScan_leastOrNone hr).eq_none hnoPilot
  obtain rfl := (magicScan_ok hq).eq_none hnoMagic
  simp only [decodeAt, hr, hq]

/-- Settles O24: on each path the decode answers the verdict on the candidate, which is what `decodeFrame` answers on
written bytes. -/
theorem decodeSelectsPilotBeforeMagic : Obligations.DecodeSelectsPilotBeforeMagic := by
  refine fun m c L hw => ⟨fun p hp => ?_, fun i hno hi => ?_, decodeAt_of_neither hw⟩
  · have := hp.1.bounds
    rw [decodeAt_of_pilot hw hp, decodeFrame_of_written fun j hj => hw j (by omega)]
  · obtain ⟨hci, -, -⟩ := hi.1
    rw [decodeAt_of_magic hw hno hi, decodeFrame_of_written fun j hj => hw j (by omega)]

section
variable {m : Memory} {L s : Nat} {first : Bool}

theorem frameVerdict_incompleteHeader (h : L - s < 10) : frameVerdict m L s first = .fail .incompleteHeader := by
  rw [frameVerdict, if_pos h]

theorem rollover_header_iff : rollover (m.slice (s + 5) 4) = m.byteAt (s + 9) ↔ m.HeaderOk s :=
  rollover_eq_iff _ _

theorem frameVerdict_headerCsumMismatch (hlen : 10 ≤ L - s) (hmagic : m.slice s 5 = magic) (h : ¬ m.HeaderOk s) :
    frameVerdict m L s first = .fail .headerCsumMismatch := by
  rw [frameVerdict, if_neg (by omega), if_neg (not_not.2 hmagic), if_pos (mt rollover_header_iff.1 h)]

theorem frameVerdict_blockIncomplete (hlen : 10 ≤ L - s) (hmagic : m.slice s 5 = magic) (hheader : m.HeaderOk s)
    (h : L - s < 10 + m.sizeAt s + 1) : frameVerdict m L s first = .fail .blockIncomplete := by
  rw [frameVerdict, if_neg (by omega), if_neg (not_not.2 hmagic), if_neg (not_not.2 (rollover_header_iff.2 hheader)),
    if_pos h]

theorem frameVerdict_dataCsumMismatch (hlen : 10 + m.sizeAt s + 1 ≤ L - s) (hmagic : m.slice s 5 = magic)
    (hheader : m.HeaderOk s) (h : ¬ m.DataOk s) : frameVerdict m L s first = .fail .dataCsumMismatch := by
  rw [frameVerdict, if_neg (by omega), if_neg (not_not.2 hmagic), if_neg (not_not.2 (rollover_header_iff.2 hheader)),
    if_neg (by omega), if_pos (mt (m.dataOk_iff s).1 h)]

end

/-- Settles O25: on written bytes the decode is the verdict, which the first failing step decides. -/
theorem firstFailingStepDecides : Obligations.FirstFailingStepDecides := by
  intro m L s first hw hL
  dsimp only
  rw [decodeFrame_of_written hw]
  refine ⟨fun hlen => ?_, fun hlen hmagic => ?_, fun hlen hmagic hheader => ?_, fun hlen hmagic hheader hshort => ?_,
    fun hlen hmagic hheader hdata => ?_, fun hvalid => ?_⟩
  · rw [frameVerdict_incompleteHeader hlen]
  · rw [frameVerdict_invalidHeader (by omega) hmagic]
  · rw [frameVerdict_headerCsumMismatch hlen hmagic hheader]
  · rw [frameVerdict_blockIncomplete hlen hmagic hheader hshort]
  · rw [frameVerdict_dataCsumMismatch hlen hmagic hheader hdata]
  · obtain ⟨e, hverdict, hentry⟩ := frameVerdict_entry first hvalid hL
    exact ⟨e, congrArg Except.ok hverdict, hentry⟩

/-! ## A decoded block -/

/-- What an answered block is, said through its entry: the entry of the valid frame at its `START`, its raw range ending
at `next` (R79, R88). -/
theorem decodeAt_block_entry {m : Memory} {c L next : Nat} {e : Entry} (hL : L < 2 ^ 32)
    (h : decodeAt m c L = .ok (.block e next)) :
    c ≤ e.start.toNat ∧ m.ValidFrame L e.start.toNat ∧ next = e.start.toNat + e.rawLen.toNat ∧
      m.IsEntryOf L e.start.toNat e.first e := by
  obtain ⟨s, first, hcs, hvalid, hnext, he⟩ := decodeAt_block h
  have hentry := isEntryOf_entryOf first hvalid hL
  rw [← he] at hentry
  have ⟨hstart, hraw, _, _, _, _, _, _, hfirst⟩ := hentry
  subst hstart hfirst
  exact ⟨hcs, hvalid, hraw ▸ hnext, hentry⟩

/-- Settles O26: a frame of 1 to 256 data bytes has 12 to 277 raw bytes, all inside the buffer; and no step looks
outside `[c, L)`. -/
theorem decodeStaysInsideBuffer : Obligations.DecodeStaysInsideBuffer := by
  refine ⟨fun m c L next e hL h => ?_, fun m m' c L => decodeAt_congr⟩
  obtain ⟨hstart, hvalid, hnext, hentry⟩ := decodeAt_block_entry hL h
  obtain ⟨-, hraw, -⟩ := hentry
  obtain ⟨hlow, hhigh, hinside⟩ := rawLenAt_bounds hvalid
  have hpos := sizeAt_pos m e.start.toNat
  have hmax := sizeAt_le m e.start.toNat
  omega

/-- Settles O27: a valid frame's data checksum matches, and the entry holds its data size and checksum byte. -/
theorem decodedBlockIsSelfConsistent : Obligations.DecodedBlockIsSelfConsistent := by
  intro m c L next e hL h
  obtain ⟨-, hvalid, -, hentry⟩ := decodeAt_block_entry hL h
  have ⟨_, _, _, _, hsize, _, _, hdcsum, _⟩ := hentry
  have ⟨_, _, _, hdata⟩ := hvalid
  rw [← hsize] at hdcsum
  refine ⟨?_, hdcsum, hvalid, hentry⟩
  rw [hdcsum, hsize]
  exact (m.dataOk_iff _).2 hdata

/-! ## DECODE -/

theorem exec_decode_of_full {s : State} {e : Entry} {next : Nat} (hr : s.InRange) (hfull : s.tableFull = true)
    (hd : decodeAt s.cap s.cursor.toNat s.bufLen.toNat = .ok (.block e next)) :
    exec .decode s = .next (s.raise .tableFull) := by
  simp only [exec, execDecode, (State.rangeOK_iff s).2 hr, hd, hfull, if_true]

/-- Settles O28: one arm of DECODE for each answer of the decode, and the range error. -/
theorem decodeAppendsOrReports : Obligations.DecodeAppendsOrReports := by
  refine ⟨fun s e next hr hd => ⟨fun hfree => ?_, fun hfull => ?_⟩, fun s code hr hd => ?_, fun s hr => ?_⟩
  · have hexec := exec_decode_of_block hr (decide_eq_false hfree) hd
    exact ⟨_, hexec, ⟨rfl, rfl, rfl, rfl, rfl, rfl, rfl⟩, rfl, State.appendBlock_cursor_toNat hd, rfl, rfl,
      (exec_next hexec).untouched⟩
  · exact raise_reports (exec_decode_of_full hr (s.tableFull_iff.2 hfull) hd)
  · exact raise_reports (exec_decode_of_fail hr hd)
  · obtain ⟨-, -, hexec, -⟩ := exec_out hr
    exact raise_reports hexec

/-- Settles O32: a failed DECODE moved nothing that a decode, its range check or the table check looks at, so the same
arm is taken again. -/
theorem failedDecodeRepeats : Obligations.FailedDecodeRepeats := by
  intro s t h hfailed
  rcases exec_decode_next h with ⟨hout, rfl⟩ | ⟨hr, code, hd, rfl⟩ | ⟨hr, e, next, hd, ⟨hfull, rfl⟩ | ⟨-, rfl⟩⟩
  · obtain ⟨-, -, hexec, -⟩ := exec_out (s := (s.raise .rangeError).accept 0x4#4) hout
    exact ⟨_, hexec, rfl, rfl, rfl, rfl, rfl⟩
  · exact ⟨_, exec_decode_of_fail (s := (s.finish code).accept 0x4#4) hr hd, rfl, rfl, rfl, rfl, rfl⟩
  · exact ⟨_, exec_decode_of_full (s := (s.raise .tableFull).accept 0x4#4) hr hfull hd, rfl, rfl, rfl, rfl, rfl⟩
  · exact absurd rfl hfailed

/-! ## READ_BLOCKS again -/

/-- Two states agree on all a pass looks at: the parameters, `BUF_LEN`, `CURSOR`, the table and the capture's bytes. -/
structure State.AgreeForPass (s t : State) : Prop where
  params : t.params = s.params
  bufLen : t.bufLen = s.bufLen
  cursor : t.cursor = s.cursor
  table : t.table = s.table
  cap : ∀ a, t.cap.read a = s.cap.read a

section
variable {s t : State}

theorem State.AgreeForPass.decodeAt_eq (h : s.AgreeForPass t) :
    decodeAt t.cap t.cursor.toNat t.bufLen.toNat = decodeAt s.cap s.cursor.toNat s.bufLen.toNat := by
  rw [h.cursor, h.bufLen]
  exact decodeAt_congr fun a _ _ => h.cap a

theorem State.AgreeForPass.tableFull_eq (h : s.AgreeForPass t) : t.tableFull = s.tableFull := by
  rw [State.tableFull, State.tableFull, h.table, h.params]

theorem State.AgreeForPass.appendBlock (h : s.AgreeForPass t) (e : Entry) (next : Nat) :
    (s.appendBlock e next).AgreeForPass (t.appendBlock e next) :=
  ⟨h.params, h.bufLen, rfl, congrArg (· ++ [e]) h.table, h.cap⟩

theorem State.AgreeForPass.inRange (h : s.AgreeForPass t) (hr : s.InRange) : t.InRange := by
  rw [State.InRange, h.bufLen, h.params, h.cursor]
  exact hr

/-- Passes over states that agree stop with the same code, in states that agree. -/
theorem State.AgreeForPass.pass {u : State} {code : ResultCode} {n : Nat} (h : s.AgreeForPass t)
    (hpass : readLoop s n = .ok (u, code)) : ∃ v, readLoop t n = .ok (v, code) ∧ u.AgreeForPass v := by
  induction n generalizing s t with
  | zero =>
    cases hpass
    exact ⟨t, rfl, h⟩
  | succ n ih =>
    rw [readLoop] at hpass
    rw [readLoop, h.decodeAt_eq, h.tableFull_eq]
    rcases hd : decodeAt s.cap s.cursor.toNat s.bufLen.toNat with f | ⟨e, next⟩ | c <;> rw [hd] at hpass
    · cases hpass
    · cases hfull : s.tableFull <;> rw [hfull] at hpass
      · exact ih (h.appendBlock e next) hpass
      · cases hpass
        exact ⟨t, rfl, h⟩
    · cases hpass
      exact ⟨t, rfl, h⟩

theorem readLoop_status {n : Nat} {code : ResultCode} (h : readLoop s n = .ok (t, code)) : t.status = s.status := by
  rw [readLoop_frame h]

/-- READ_BLOCKS on two states that agree but for the table, which it empties first: the same results, each state with its
own `OVR`. -/
theorem exec_readBlocks_of_agree {t' : State} (hr : s.InRange)
    (hagree : State.AgreeForPass { s with table := [] } { t with table := [] }) (h : exec .readBlocks s = .next t') :
    ∃ v, exec .readBlocks t = .next v ∧ v.status = { t'.status with ovr := t.status.ovr } ∧
      v.cursor = t'.cursor ∧ v.table = t'.table := by
  rcases exec_readBlocks_next h with ⟨hout, -⟩ | ⟨-, u, code, hpass, rfl⟩
  · exact absurd hr hout
  obtain ⟨v, hpass', huv⟩ := hagree.pass hpass
  have hbound : t.bufLen.toNat - t.cursor.toNat = s.bufLen.toNat - s.cursor.toNat :=
    congrArg₂ (fun b c : Word => b.toNat - c.toNat) hagree.bufLen hagree.cursor
  refine ⟨_, exec_readBlocks_of_pass (hagree.inRange hr) (hbound ▸ hpass'), ?_, huv.cursor, huv.table⟩
  rw [State.finish_status, State.finish_status, readLoop_status hpass']

end

/-- Settles O38: a pass keeps all a pass looks at but `CURSOR`, which is written back, and the table, which the next one
empties; acceptance and completion keep `OVR`. -/
theorem readBlocksIsIdempotent : Obligations.ReadBlocksIsIdempotent := by
  intro s t hr h
  have hkept := (exec_next h).untouched
  exact exec_readBlocks_of_agree hr ⟨hkept.params, hkept.bufLen, rfl, rfl, hkept.cap⟩ h

end Sys2Proof.Machine
end

section
/-! PROOFS. The scan driver (O14, O33 to O36): the blocks one pass retains and where it stops, their order in the
capture, the pass as a chain of DECODE commands, and CLEAR_TABLE. -/

namespace Sys2Proof.Machine

open Sys2Proof

/-! ## CLEAR_TABLE -/

theorem exec_clearTable (s : State) : exec .clearTable s = .next (State.finish { s with table := [] } .ok) := rfl

/-- Settles O14: behind an empty table every index of the window is beyond `BLOCK_COUNT` (R29). -/
theorem clearTableEmptiesTable : Obligations.ClearTableEmptiesTable :=
  fun s => ⟨_, exec_clearTable s, ⟨rfl, rfl, rfl, rfl, rfl, rfl, rfl⟩, rfl, rfl, rfl, rfl, rfl,
    (exec_next (exec_clearTable s)).untouched, fun _ word => State.tblWord_beyond (Nat.zero_le _) word⟩

/-! ## Chains of decodes -/

section
variable {m : Memory} {L c f : Nat} {es : List Entry}

/-- A chain ends at or after its start (R88). -/
theorem DecodedFrom.start_le_end (h : DecodedFrom m L c es f) : c ≤ f := by
  induction es generalizing c with
  | nil => exact Nat.le_of_eq h.symm
  | cons x xs ih =>
    obtain ⟨next, hd, hrest⟩ := h
    have hmove := decodeAt_block_next hd
    have hforward := ih hrest
    omega

/-- Every entry of a chain is that of a decode between the chain's ends. -/
theorem DecodedFrom.block_of_mem (h : DecodedFrom m L c es f) {e : Entry} (he : e ∈ es) :
    ∃ d next, c ≤ d ∧ next ≤ f ∧ decodeAt m d L = .ok (.block e next) := by
  induction es generalizing c with
  | nil => cases he
  | cons x xs ih =>
    obtain ⟨next, hd, hrest⟩ := h
    rcases List.mem_cons.1 he with rfl | he
    · exact ⟨c, next, Nat.le_refl _, hrest.start_le_end, hd⟩
    · have hmove := decodeAt_block_next hd
      obtain ⟨d, n, hcd, hbound⟩ := ih hrest he
      exact ⟨d, n, by omega, hbound⟩

/-- Of two consecutive entries, the second is decoded from where the first one's decode ended. -/
theorem DecodedFrom.block_after_block (h : DecodedFrom m L c es f) {k : Nat} {a b : Entry} (ha : es[k]? = some a)
    (hb : es[k + 1]? = some b) :
    ∃ d d' next, decodeAt m d L = .ok (.block a d') ∧ decodeAt m d' L = .ok (.block b next) := by
  induction es generalizing c k with
  | nil => cases ha
  | cons x xs ih =>
    obtain ⟨d', hd, hrest⟩ := h
    rw [List.getElem?_cons_succ] at hb
    cases k with
    | succ k => exact ih hrest ha hb
    | zero =>
      cases ha
      cases xs with
      | nil => cases hb
      | cons y ys =>
        cases hb
        obtain ⟨next, hd', -⟩ := hrest
        exact ⟨c, d', next, hd, hd'⟩

end

/-! ## READ_BLOCKS in the terms of its start state -/

section
variable {s t : State}

/-- READ_BLOCKS completes with `FOUND` and `STATUS[19:16]` 0, and writes neither `RESULT_INDEX` nor `CSUM` (R91,
R112). -/
theorem exec_readBlocks_completed (h : exec .readBlocks s = .next t) :
    Completed s t t.status.result false CompFlags.none ∧ t.resultIndex = s.resultIndex ∧ t.csum = s.csum := by
  rcases exec_readBlocks_next h with ⟨-, rfl⟩ | ⟨-, u, code, hpass, rfl⟩
  · exact ⟨⟨rfl, rfl, rfl, rfl, rfl, rfl, rfl⟩, rfl, rfl⟩
  · rw [readLoop_frame hpass]
    exact ⟨⟨rfl, rfl, rfl, rfl, rfl, rfl, rfl⟩, rfl, rfl⟩

/-- A pass in range (R91): the entries are those of the successive decodes from `CURSOR`, the table has room for them,
and the decode at the final `CURSOR` is what stops it. -/
theorem exec_readBlocks_pass (hr : s.InRange) (h : exec .readBlocks s = .next t) :
    DecodedFrom s.cap s.bufLen.toNat s.cursor.toNat t.table t.cursor.toNat ∧
    t.table.length ≤ s.params.maxBlocks.toNat ∧
    PassEnd { s with table := t.table, cursor := t.cursor } t.status.result := by
  rcases exec_readBlocks_next h with ⟨hout, -⟩ | ⟨-, u, code, hpass, rfl⟩
  · exact absurd hr hout
  have hchain := readLoop_decodedFrom (Nat.le_refl _) rfl hpass
  have hroom := readLoop_table_le (Nat.le_refl _) (Nat.zero_le _) hpass
  have hend := readLoop_passEnd (Nat.le_refl _) hpass
  rw [readLoop_frame hpass] at hroom hend
  exact ⟨hchain, hroom, hend⟩

end

/-- Settles O33: on written bytes the pass answers, and its end is `PassEnd` over the start state's capture. -/
theorem readBlocksStopsAtFirstFailure : Obligations.ReadBlocksStopsAtFirstFailure := by
  refine ⟨fun s hr hw => ?_, fun s hr => ?_⟩
  · obtain ⟨⟨u, code⟩, hloop⟩ := readLoop_of_written (s := { s with table := [] }) hw
    have hexec := exec_readBlocks_of_pass hr hloop
    obtain ⟨hcompleted, hresultIndex, hcsum⟩ := exec_readBlocks_completed hexec
    obtain ⟨hchain, hroom, hend⟩ := exec_readBlocks_pass hr hexec
    refine ⟨_, _, hexec, hcompleted, hchain, hroom, ?_, fun e he => ?_, hresultIndex, hcsum,
      (exec_next hexec).untouched⟩
    · exact hend.imp_right (And.imp_right (And.imp_left (State.tableFull_iff _).1))
    · obtain ⟨d, next, -, -, hd⟩ := hchain.block_of_mem he
      obtain ⟨-, hvalid, -, hentry⟩ := decodeAt_block_entry s.bufLen.isLt hd
      exact ⟨hvalid, hentry⟩
  · obtain ⟨-, -, -, hexec⟩ := exec_out hr
    exact raise_reports hexec

/-- Settles O35: each appended block moves `CURSOR` by 12 bytes or more, and never beyond `BUF_LEN`. -/
theorem readBlocksIsBounded : Obligations.ReadBlocksIsBounded := by
  intro s t h
  rcases exec_readBlocks_next h with ⟨hout, rfl⟩ | ⟨⟨-, hcursor⟩, u, code, hpass, rfl⟩
  · exact ⟨nofun, fun hr => absurd hr hout⟩
  · have hforward := readLoop_cursor_bound (Nat.le_refl _) rfl hpass
    have hinside := readLoop_cursor_le (s := { s with table := [] }) (Nat.le_refl _) hcursor hpass
    rw [readLoop_frame hpass] at hinside
    refine ⟨(readLoop_passEnd (Nat.le_refl _) hpass).ne_ok, fun _ => ?_⟩
    rw [State.finish_cursor, State.finish_table]
    dsimp only at hforward hinside
    omega

/-- Settles O36: an entry's raw range ends where its decode ended, and a decode's entry starts at or after where the
decode started. -/
theorem readBlocksEntriesInOrder : Obligations.ReadBlocksEntriesInOrder := by
  intro s t hr h
  obtain ⟨hchain, -, -⟩ := exec_readBlocks_pass hr h
  refine ⟨fun k a b ha hb => ?_, fun e he => ?_⟩
  · obtain ⟨d, d', next, hda, hdb⟩ := hchain.block_after_block ha hb
    obtain ⟨-, -, hend, -⟩ := decodeAt_block_entry s.bufLen.isLt hda
    obtain ⟨hstart, -⟩ := decodeAt_block_entry s.bufLen.isLt hdb
    exact hend ▸ hstart
  · obtain ⟨d, next, hcd, hnext, hd⟩ := hchain.block_of_mem he
    obtain ⟨hstart, -, hend, -⟩ := decodeAt_block_entry s.bufLen.isLt hd
    omega

/-! ## The pass as a chain of DECODE commands -/

section
variable {s t v : State}

theorem decodeChain_iff_of_stop (h : exec .decode s = .next t) (hstop : t.status.result ≠ .ok) :
    DecodeChain s v ↔ v = t :=
  ⟨fun hv => hv.unique (.stop h hstop), fun hv => hv ▸ .stop h hstop⟩

theorem decodeChain_iff_of_more (h : exec .decode s = .next t) (hok : t.status.result = .ok) :
    DecodeChain s v ↔ DecodeChain t v := by
  refine ⟨fun hv => ?_, .more h hok⟩
  cases hv with
  | stop h' hstop =>
    rw [h] at h'
    cases h'
    exact absurd hok hstop
  | more h' _ hrest =>
    rw [h] at h'
    cases h'
    exact hrest

theorem not_decodeChain_of_fault {f : Fault} (h : exec .decode s = .fault f) : ¬ DecodeChain s v := by
  intro hv
  cases hv with
  | stop h' _ | more h' _ _ =>
    rw [h] at h'
    cases h'

theorem exec_decode_of_error {f : Fault} (hr : s.InRange)
    (hd : decodeAt s.cap s.cursor.toNat s.bufLen.toNat = .error f) : exec .decode s = .fault f := by
  simp only [exec, execDecode, (State.rangeOK_iff s).2 hr, hd, if_true]

theorem State.InRange.appendBlock {e : Entry} {next : Nat} (hr : s.InRange)
    (hd : decodeAt s.cap s.cursor.toNat s.bufLen.toNat = .ok (.block e next)) : (s.appendBlock e next).InRange := by
  obtain ⟨hfits, -⟩ := hr
  refine ⟨hfits, ?_⟩
  rw [State.appendBlock_cursor_toNat hd]
  exact (decodeAt_block_next hd).2

/-- After a command completed, a chain over a decode that fails is that one decode. -/
theorem decodeChain_iff_of_fail {code : ResultCode} (hr : s.InRange)
    (hd : decodeAt s.cap s.cursor.toNat s.bufLen.toNat = .ok (.fail code)) :
    DecodeChain (s.finish .ok) v ↔ v = s.finish code :=
  decodeChain_iff_of_stop (exec_decode_of_fail (s := s.finish .ok) hr hd) (decodeAt_fail_ne_ok hd)

/-- A chain over a block the table has no room for is that one decode. -/
theorem decodeChain_iff_of_full {e : Entry} {next : Nat} (hr : s.InRange) (hfull : s.tableFull = true)
    (hd : decodeAt s.cap s.cursor.toNat s.bufLen.toNat = .ok (.block e next)) :
    DecodeChain (s.finish .ok) v ↔ v = s.finish .tableFull :=
  decodeChain_iff_of_stop (exec_decode_of_full (s := s.finish .ok) hr hfull hd) nofun

/-- A chain over a block the table has room for goes on behind it. -/
theorem decodeChain_iff_of_block {e : Entry} {next : Nat} (hr : s.InRange) (hfree : s.tableFull = false)
    (hd : decodeAt s.cap s.cursor.toNat s.bufLen.toNat = .ok (.block e next)) :
    DecodeChain (s.finish .ok) v ↔ DecodeChain ((s.appendBlock e next).finish .ok) v :=
  decodeChain_iff_of_more (exec_decode_of_block (s := s.finish .ok) hr hfree hd) rfl

/-- From a completed command on, the chain of DECODE commands ends exactly in the state in which the loop of READ_BLOCKS
completes: each round of the loop is one DECODE. -/
theorem decodeChain_iff_readLoop {n : Nat} (hr : s.InRange) (hn : s.bufLen.toNat - s.cursor.toNat ≤ n) :
    DecodeChain (s.finish .ok) v ↔ ∃ u code, readLoop s n = .ok (u, code) ∧ v = u.finish code := by
  induction n generalizing s with
  | zero =>
    rw [decodeChain_iff_of_fail hr (decodeAt_empty (by omega))]
    simp [readLoop]
  | succ n ih =>
    rw [readLoop]
    rcases hd : decodeAt s.cap s.cursor.toNat s.bufLen.toNat with f | ⟨e, next⟩ | code
    · simp [not_decodeChain_of_fault (exec_decode_of_error (s := s.finish .ok) hr hd)]
    · cases hfull : s.tableFull with
      | true =>
        rw [decodeChain_iff_of_full hr hfull hd]
        simp
      | false =>
        have hmove := decodeAt_block_next hd
        rw [decodeChain_iff_of_block hr hfull hd]
        refine ih (hr.appendBlock hd) ?_
        rw [State.appendBlock_cursor_toNat hd, State.appendBlock_bufLen]
        omega
    · rw [decodeChain_iff_of_fail hr hd]
      simp

/-- In range READ_BLOCKS and CLEAR_TABLE with its chain of DECODE commands end in the same state, if either ends
(R95). -/
theorem exec_readBlocks_iff_decodeChain (hr : s.InRange) :
    exec .readBlocks s = .next t ↔ DecodeChain (State.finish { s with table := [] } .ok) t := by
  rw [decodeChain_iff_readLoop (s := { s with table := [] }) hr (Nat.le_refl _)]
  constructor
  · intro h
    rcases exec_readBlocks_next h with ⟨hout, -⟩ | ⟨-, hpass⟩
    · exact absurd hr hout
    · exact hpass
  · rintro ⟨u, code, hpass, rfl⟩
    exact exec_readBlocks_of_pass hr hpass

end

/-- Settles O34: the two end in the very same state, so in the same `STATUS`, `CURSOR` and table. -/
theorem readBlocksIsClearThenDecodes : Obligations.ReadBlocksIsClearThenDecodes := by
  refine ⟨fun s u hr hclear => ?_, fun s hr => ?_⟩
  · cases (exec_clearTable s).symm.trans hclear
    exact ⟨fun t h => ⟨t, (exec_readBlocks_iff_decodeChain hr).1 h, rfl, rfl, rfl⟩,
      fun v hv => ⟨v, (exec_readBlocks_iff_decodeChain hr).2 hv, rfl, rfl, rfl⟩⟩
  · obtain ⟨-, -, -, hread⟩ := exec_out hr
    obtain ⟨-, -, hdecode, -⟩ := exec_out (s := State.finish { s with table := [] } .ok) hr
    exact ⟨_, _, _, hread, rfl, exec_clearTable s, rfl, hdecode, rfl⟩

end Sys2Proof.Machine
end

section
/-! PROOFS. The completeness check (O15, O16): its flags are those of the table's two ends. -/

namespace Sys2Proof.Machine

open Sys2Proof

theorem exec_checkComplete (s : State) :
    exec .checkComplete s = .next (s.complete .ok false (compFlags s.table)) := rfl

theorem State.complete_completed (s : State) (code : ResultCode) (found : Bool) (flags : CompFlags) :
    Completed s (s.complete code found flags) code found flags :=
  ⟨rfl, rfl, rfl, rfl, rfl, rfl, rfl⟩

theorem compFlags_nil : compFlags [] = ⟨false, true, true, true⟩ := rfl

/-- Over a table with first entry `e` and last entry `l` the flags are a function of `e.first` and `l.blkNum` (R98,
R101). -/
theorem compFlags_of_ends {table : List Entry} {e l : Entry} (hfirst : table.head? = some e)
    (hlast : table.getLast? = some l) :
    compFlags table = ⟨e.first && decide (l.blkNum = 0#8), !e.first, decide (l.blkNum ≠ 0#8), false⟩ := by
  simp [compFlags, hfirst, hlast]

/-- `STATUS` of a complete table (R98's worked example): `DONE` and `COMPLETE` alone. -/
theorem Status.pack_complete_ok :
    Status.pack ⟨false, true, false, false, .ok, ⟨true, false, false, false⟩⟩ = 0x00010002#32 := by
  decide

/-- Settles O15: the flags are those of an empty table or of the table's ends; a complete table's leave bits 1 and 16 of
`STATUS`. -/
theorem checkCompleteReportsEnds : Obligations.CheckCompleteReportsEnds := by
  intro s
  refine ⟨_, exec_checkComplete s, ⟨rfl, rfl, rfl, rfl⟩, (exec_next (exec_checkComplete s)).untouched,
    fun hempty => ?_, fun e l he hl => ?_⟩
  · rw [hempty, compFlags_nil]
    exact s.complete_completed ..
  · rw [← List.head?_eq_getElem?] at he
    rw [← List.getLast?_eq_getElem?] at hl
    rw [compFlags_of_ends he hl]
    refine ⟨s.complete_completed .., fun hfirst hlast hovr => ?_⟩
    rw [State.readReg, State.complete_status, hfirst, hlast, hovr]
    exact Status.pack_complete_ok

/-- Settles O16: the flags of either state are the same function of the two fields its ends share. -/
theorem checkCompleteIgnoresTheRest : Obligations.CheckCompleteIgnoresTheRest := by
  intro s s' t t' a b a' b' xs xs' hs hs' hb hb' hfirst hblk h h'
  obtain ⟨hflags, -, -⟩ := exec_checkComplete_flags h
  obtain ⟨hflags', -, -⟩ := exec_checkComplete_flags h'
  rw [hflags, hflags', hs, hs', compFlags_of_ends rfl hb, compFlags_of_ends rfl hb', hfirst, hblk]

end Sys2Proof.Machine
end

section
/-! PROOFS. The control commands and the host's register accesses (O12, O13, O41 to O43, O46, O51): NOP and the reserved
opcodes, the writes and reads of R104 while idle and of R105 and R106 while busy, and the soft reset of R108. -/

namespace Sys2Proof

/-- Opcodes 0x8 to 0xF are the reserved ones (R63, R64). -/
theorem decodeOpc_reserved {opc : BitVec 4} (h : 8 ≤ opc.toNat) : decodeOpc opc = .reserved opc := by
  revert opc; decide

end Sys2Proof

namespace Sys2Proof.Machine

open Sys2Proof

/-! ## Writes that act whether idle or busy -/

/-- The RO registers of R19. -/
def RegName.readOnly : List RegName :=
  [.id, .resultIndex, .csum, .blockCount, .tblW0, .tblW1, .tblW2, .tblW3, .cfgCapSize, .cfgMaxBlocks]

theorem State.writeReg_readOnly (s : State) (w : Word) : ∀ r ∈ RegName.readOnly, s.writeReg w r = s := by
  simp [RegName.readOnly, State.writeReg]

theorem State.access_write_readOnly (s : State) (w : Word) :
    ∀ off ∈ RegName.readOnly.map RegName.offset, s.access (.regWrite 32 off w) = s :=
  List.forall_mem_map.2 fun r hr => (s.access_regWrite r w).trans (s.writeReg_readOnly w r hr)

/-- A write at a reserved offset is ignored (R31). -/
theorem State.access_write_reserved (s : State) (w : Word) {off : BitVec 12} (h : 0x048 ≤ off.toNat) :
    s.access (.regWrite 32 off w) = s :=
  (s.regAccess_without_register (.inr (regAt_reserved h)) w).1

theorem State.access_write_ctrl_enable (s : State) {w : Word} (h : w.getLsbD 1 = false) :
    s.access (.regWrite 32 0x004#12 w) = { s with ie := w.getLsbD 0 } :=
  (s.access_regWrite .ctrl w).trans (s.writeCtrl_enable h)

theorem State.access_write_ctrl_reset (s : State) {w : Word} (h : w.getLsbD 1 = true) :
    s.access (.regWrite 32 0x004#12 w) = s.softReset :=
  (s.access_regWrite .ctrl w).trans (s.writeCtrl_softReset h)

theorem State.access_write_status (s : State) (w : Word) :
    s.access (.regWrite 32 0x00C#12 w) = s.writeStatus w :=
  s.access_regWrite .status w

/-! ## Writes that act only while idle -/

/-- The registers whose writes a busy block refuses (R105). -/
def RegName.refusedBusy : List RegName := [.cmd, .bufLen, .cursor, .argAddr, .argLen, .tblIndex]

theorem State.writeReg_refusedBusy {s : State} (hbusy : s.status.busy = true) (w : Word) :
    ∀ r ∈ RegName.refusedBusy, s.writeReg w r = s.refuseWrite := by
  simp [RegName.refusedBusy, State.writeReg, State.writeIdle_busy hbusy]

theorem State.access_write_refusedBusy {s : State} (hbusy : s.status.busy = true) (w : Word) :
    ∀ off ∈ RegName.refusedBusy.map RegName.offset, s.access (.regWrite 32 off w) = s.refuseWrite :=
  List.forall_mem_map.2 fun r hr => (s.access_regWrite r w).trans (State.writeReg_refusedBusy hbusy w r hr)

/-- An idle block carries out the write of a register that a busy one guards (R104). -/
theorem State.access_write_idle {s act : State} {r : RegName} {w : Word} (hidle : s.status.busy = false)
    (hguard : s.writeReg w r = s.writeIdle act) : s.access (.regWrite 32 r.offset w) = act := by
  rw [State.access_regWrite, hguard, State.writeIdle_idle hidle]

/-- An idle block accepts the low four bits of whatever is written to `CMD` (R62, R110). -/
theorem State.access_write_cmd {s : State} (hidle : s.status.busy = false) (w : Word) :
    s.access (.regWrite 32 0x008#12 w) = s.accept (opcOfWord w) :=
  State.access_write_idle (r := .cmd) hidle rfl

/-! ## Reads -/

theorem bitAt_zero (b : Bool) : bitAt 0 b = if b then 1#32 else 0#32 := by cases b <;> rfl

/-- A read at a reserved offset returns 0 (R31). -/
theorem State.regReadValue_reserved (s : State) {off : BitVec 12} (h : 0x048 ≤ off.toNat) :
    s.regReadValue 32 off = 0#32 :=
  (s.regAccess_without_register (.inr (regAt_reserved h)) 0#32).2

/-- An idle read draws no free value: the host gets the word, and nothing else changes (R44, R104). -/
theorem State.access_read_idle {s : State} (hidle : s.status.busy = false) (bits : Nat) (off : BitVec 12) :
    s.access (.regRead bits off) = s.hostGot (s.regReadValue bits off) := by
  simp [State.access, State.drawn, hidle]

theorem State.access_read_reg {s : State} (hidle : s.status.busy = false) (r : RegName) :
    s.access (.regRead 32 r.offset) = s.hostGot (s.readReg r) := by
  simp [State.access_read_idle hidle, State.regReadValue_offset, hidle]

/-- The registers of R19 by offset. -/
def RegName.all : List RegName :=
  [.id, .ctrl, .cmd, .status, .bufLen, .cursor, .argAddr, .argLen, .resultIndex, .csum, .blockCount, .tblIndex, .tblW0,
    .tblW1, .tblW2, .tblW3, .cfgCapSize, .cfgMaxBlocks]

theorem State.access_read_all {s : State} (hidle : s.status.busy = false) :
    ∀ x ∈ RegName.all.map fun r => (r.offset, s.readReg r), s.access (.regRead 32 x.1) = s.hostGot x.2 :=
  List.forall_mem_map.2 fun r _ => State.access_read_reg hidle r

/-- The registers other than `STATUS` that read exactly while busy (R106). -/
def RegName.exactBusy : List RegName :=
  [.id, .ctrl, .cmd, .bufLen, .argAddr, .argLen, .tblIndex, .cfgCapSize, .cfgMaxBlocks]

theorem State.readRegBusy_exactBusy (s : State) (free : Word) :
    ∀ r ∈ RegName.exactBusy, s.readRegBusy free r = s.readReg r := by
  simp [RegName.exactBusy, State.readRegBusy]

theorem State.regReadValue_exactBusy {s : State} (hbusy : s.status.busy = true) {r : RegName}
    (hr : r ∈ RegName.exactBusy) : s.regReadValue 32 r.offset = s.readReg r := by
  rw [State.regReadValue_offset, if_pos hbusy, s.readRegBusy_exactBusy _ r hr]

theorem State.regReadValue_exactBusy_all {s : State} (hbusy : s.status.busy = true) :
    ∀ x ∈ RegName.exactBusy.map fun r => (r.offset, s.readReg r), s.regReadValue 32 x.1 = x.2 :=
  List.forall_mem_map.2 fun _ => State.regReadValue_exactBusy hbusy

/-- Outside `FOUND`, `RESULT` and bits 19:16 a busy read of `STATUS` is exact (R106). -/
theorem State.regReadValue_status_getLsbD {s : State} (hbusy : s.status.busy = true) {j : Nat} (hj : j < 32)
    (hexact : busyStatusMask.getLsbD j = false) : (s.regReadValue 32 0x00C#12).getLsbD j = s.status.pack.getLsbD j := by
  have hread : s.regReadValue 32 0x00C#12 = s.status.packBusy (Config.busyRead s.draws) :=
    (s.regReadValue_offset .status).trans (if_pos hbusy)
  rw [hread, Status.packBusy, BitVec.getLsbD_or, BitVec.getLsbD_and, BitVec.getLsbD_and, BitVec.getLsbD_not, hexact]
  simp [hj]

/-! ## A pending command -/

/-- Settles O51: besides the soft reset, a busy access can change only `STATUS` (but not `BUSY`), `IE`, the host and the
draw counter (`State.access_busy`). -/
theorem pendingCommandSeesFixedOperands : Obligations.PendingCommandSeesFixedOperands := by
  intro s a hbusy
  rcases State.access_busy a hbusy with hreset | ⟨st, ie, draws, host, hst, heq⟩
  · exact .inl hreset
  · rw [heq]
    exact .inr ⟨rfl, hst, rfl, rfl, rfl, rfl, rfl, rfl, rfl, fun _ => rfl⟩

/-! ## NOP and the reserved opcodes -/

theorem exec_nop (s : State) : exec .nop s = .next (s.finish .ok) := rfl

theorem exec_reserved (opc : BitVec 4) (s : State) : exec (.reserved opc) s = .next (s.raise .illegalCmd) := rfl

/-- `STATUS` after a command that completed with `OK` and found nothing (R102's worked example): `DONE` alone. -/
theorem Status.pack_done_ok : Status.pack ⟨false, true, false, false, .ok, CompFlags.none⟩ = 0x00000002#32 := by
  decide

/-- Settles O12: NOP is the completion alone, and its issue the acceptance of opcode 0. -/
theorem nopCompletesOk : Obligations.NopCompletesOk := by
  refine ⟨fun s => ?_, fun s hidle => ?_, fun p => ⟨_, exec_nop _, Status.pack_done_ok⟩⟩
  · exact ⟨_, exec_nop s, s.complete_completed .., ⟨rfl, rfl, rfl, rfl⟩, (exec_next (exec_nop s)).untouched, rfl⟩
  · rw [State.access_write_cmd hidle]
    exact ⟨rfl, rfl, rfl, State.irq_of_not_done rfl⟩

/-- Settles O13: a reserved opcode raises, and the opcode accepted before is the one `CMD` reads back. -/
theorem reservedOpcodeCompletesIllegal : Obligations.ReservedOpcodeCompletesIllegal := by
  refine ⟨fun s opc => raise_reports (exec_reserved opc s), rfl, fun s w hidle hreserved => ?_⟩
  have hdecode : decodeWord w = .reserved (w.extractLsb' 0 4) := decodeOpc_reserved hreserved
  rw [State.access_write_cmd hidle, hdecode]
  exact ⟨rfl, _, exec_reserved _ _, rfl⟩

/-! ## Host accesses while idle -/

/-- Settles O41: one clause for each kind of register write, and the reads by the list of R19's registers. -/
theorem idleHostAccesses : Obligations.IdleHostAccesses := by
  intro s w hidle
  refine ⟨State.access_write_idle (r := .bufLen) hidle rfl, State.access_write_idle (r := .cursor) hidle rfl,
    State.access_write_idle (r := .argAddr) hidle rfl, State.access_write_idle (r := .argLen) hidle rfl,
    State.access_write_idle (r := .tblIndex) hidle rfl, State.access_write_cmd hidle w, s.access_write_status w,
    s.access_write_ctrl_enable, s.access_write_ctrl_reset, s.access_write_readOnly w,
    fun _ hoff => s.access_write_reserved w hoff, State.access_read_reg hidle, ?_, fun off hoff => ?_⟩
  · rw [← bitAt_zero]
    exact State.access_read_all hidle
  · rw [State.access_read_idle hidle, s.regReadValue_reserved hoff]
    rfl

/-! ## Host accesses while busy -/

/-- Settles O42: the guarded writes are refused, and every other write acts as it does while idle. -/
theorem busyHostWrites : Obligations.BusyHostWrites := fun s w hbusy =>
  ⟨State.access_write_refusedBusy hbusy w, State.access_capWrite_busy hbusy, s.access_write_ctrl_enable,
    s.access_write_ctrl_reset, s.access_write_status w, s.access_write_readOnly w,
    fun _ hoff => s.access_write_reserved w hoff⟩

/-- Settles O43: the exact registers read as while idle, and so does each bit of `STATUS` outside the mask of R106. -/
theorem busyReadsThatAreExact : Obligations.BusyReadsThatAreExact := by
  intro s hbusy hdone
  obtain ⟨hbit0, hbit1, -, hbit3, -⟩ := s.status.pack_getLsbD_flags
  refine ⟨fun r => State.regReadValue_exactBusy hbusy, ?_, ?_, ?_, ?_, fun b hb => ?_,
    fun _ hoff => s.regReadValue_reserved hoff⟩
  · rw [← bitAt_zero]
    exact State.regReadValue_exactBusy_all hbusy
  · rw [State.regReadValue_status_getLsbD hbusy (by decide) (by decide), hbit0, hbusy]
  · rw [State.regReadValue_status_getLsbD hbusy (by decide) (by decide), hbit1, hdone]
  · rw [State.regReadValue_status_getLsbD hbusy (by decide) (by decide), hbit3]
  · have hreserved : ∀ b ∈ [4, 5, 6, 7, 20, 21, 22, 23, 24, 25, 26, 27, 28, 29, 30, 31],
        b < 32 ∧ busyStatusMask.getLsbD b = false ∧ (4 ≤ b ∧ b < 8 ∨ 20 ≤ b) := by decide
    obtain ⟨hlt, hexact, hplace⟩ := hreserved b hb
    rw [State.regReadValue_status_getLsbD hbusy hlt hexact, s.status.pack_getLsbD_reserved hplace]

/-! ## Soft reset -/

/-- No register shows what a soft reset keeps: capture, host and draw counter (R108). -/
theorem State.readReg_softReset (s : State) (r : RegName) :
    s.softReset.readReg r = (State.resetWith s.params).readReg r := by
  cases r <;> rfl

/-- `SRST` is not stored: `CTRL` holds `IE` alone (R21). -/
theorem State.readReg_ctrl_srst (s : State) : (s.readReg .ctrl).getLsbD 1 = false :=
  bitAt_getLsbD (by decide) s.ie 1

/-- Settles O46: the write is the soft reset whatever its other bits, idle or busy. -/
theorem softResetKeepsOnlyTheCapture : Obligations.SoftResetKeepsOnlyTheCapture := by
  intro s w hsrst
  rw [s.access_write_ctrl_reset hsrst]
  exact ⟨s.readReg_softReset, rfl, rfl, rfl, rfl, rfl, fun _ => rfl, s.readReg_ctrl_srst⟩

end Sys2Proof.Machine
end

section
/-! PROOFS. The handshake of a command (O4 to O7, O10, O11): its acceptance, which agent moves next, that a pending command
is evaluated within its delay, and how an evaluation ends. -/

namespace Sys2Proof

/-- A table word that decodes stands for the command its low four bits map to (R62, R63). -/
theorem decodeOpc_of_decodeTableWord {nbits w : Nat} {i : Instr} (h : decodeTableWord nbits w = some i) :
    decodeOpc (opcOfWord (tableWord nbits w)) = i := by
  rw [decodeTableWord, decodeOp_cmdWrite] at h
  split at h
  · exact Option.some.inj h
  · cases h

end Sys2Proof

namespace Sys2Proof.Machine

open Sys2Proof

/-! ## Acceptance -/

/-- Settles O6: the write is the acceptance while idle, whose fields are those of R110, and the refusal while busy. -/
theorem cmdWriteIsAccepted : Obligations.CmdWriteIsAccepted := by
  refine fun s w => ⟨fun hidle => ?_, fun hbusy => ?_⟩
  · rw [State.access_write_cmd hidle]
    exact ⟨rfl, rfl, rfl, rfl, State.irq_of_not_done rfl, rfl, rfl, rfl, rfl, rfl, rfl, rfl, rfl, rfl, rfl, rfl, rfl,
      fun _ => rfl⟩
  · exact State.access_write_refusedBusy hbusy w 0x008#12 (by decide)

/-! ## Which agent moves -/

section
variable {s : State} {opc : BitVec 4}

/-- With no delay left the engine runs the pending opcode, whatever the host has to make (log 4). -/
theorem step_of_no_delay (hpend : s.pend = some opc) (hdelay : s.delay = 0) : step s = exec (decodeOpc opc) s := by
  cases hline : s.hostLine with
  | none => exact step_of_pend hpend hline
  | some l => simp only [step, State.move, hpend, hline, hdelay, if_true]

/-- As long as delay is left the host makes its next line before the pending command completes (log 4). -/
theorem step_of_delay {l : HostLine} (hpend : s.pend = some opc) (hline : s.hostLine = some l) (hdelay : s.delay ≠ 0) :
    step s = .next (s.hostStep l) := by
  simp only [step, State.move, hpend, hline, hdelay, if_false]

/-- Without a pending command or a host line nothing happens (log 13). -/
theorem step_of_neither (hpend : s.pend = none) (hline : s.hostLine = none) : step s = .next s := by
  simp only [step, State.move, hpend, hline]

end

/-- Settles O4: the engine moves where no host line or no delay is left, and `withFetchWord` leaves no delay. -/
theorem stepRunsPendingCommand : Obligations.StepRunsPendingCommand := by
  refine ⟨fun s opc hpend hengine => ?_, fun s nbits w i hdecode => ?_⟩
  · rcases hengine with hline | hdelay
    · exact step_of_pend hpend hline
    · exact step_of_no_delay hpend hdelay
  · rw [step_of_no_delay (s.withFetchWord_pend nbits w) rfl, decodeOpc_of_decodeTableWord hdecode]

/-- Settles O5: one clause for each case of `State.move`, and a line of one transaction is that access by definition. -/
theorem eitherAgentMayMoveFirst : Obligations.EitherAgentMayMoveFirst :=
  ⟨fun _ _ _ hpend hline => ⟨step_of_no_delay hpend, step_of_delay hpend hline⟩,
    fun _ _ => step_of_hostLine, fun _ _ => rfl, fun _ => step_of_neither⟩

/-! ## A pending command is evaluated -/

/-- A host line while busy is a soft reset, or leaves the block busy with the same opcode pending and one access fewer to
come before the completion (R105, R108, log 4). -/
theorem State.hostStep_busy {s : State} (hbusy : s.status.busy = true) (l : HostLine) :
    (s.hostStep l).pend = none ∨
    ((s.hostStep l).status.busy = true ∧ (s.hostStep l).pend = s.pend ∧ (s.hostStep l).delay = s.delay - 1) := by
  obtain ⟨a, p, hstep⟩ := s.hostStep_eq l
  rw [hstep]
  rcases State.access_busy (s := { s with delay := s.delay - 1 }) a hbusy with hreset | ⟨st, ie, draws, host, hst, heq⟩
  · rw [hreset]
    exact .inl rfl
  · rw [heq]
    exact .inr ⟨hst, rfl, rfl⟩

/-- Settles O11, by induction on the delay: without a host line the engine moves at once, and each host line soft-resets
the block or uses up one access of the delay. -/
theorem acceptedCommandIsEvaluated : Obligations.AcceptedCommandIsEvaluated := by
  intro s opc hbusy hpend
  induction hdelay : s.delay generalizing s with
  | zero => exact ⟨0, s, Nat.le_refl 0, rfl, .inr ⟨hpend, step_of_no_delay hpend hdelay⟩⟩
  | succ d ih =>
    cases hline : s.hostLine with
    | none => exact ⟨0, s, Nat.zero_le _, rfl, .inr ⟨hpend, step_of_pend hpend hline⟩⟩
    | some l =>
      have hstep : step s = .next (s.hostStep l) := step_of_delay hpend hline (by omega)
      rcases State.hostStep_busy hbusy l with hreset | ⟨hbusy', hpend', hdelay'⟩
      · exact ⟨1, s.hostStep l, by omega, run_succ_of_next hstep, .inl hreset⟩
      · obtain ⟨k, t, hk, hrun, ht⟩ := ih (s.hostStep l) hbusy' (hpend'.trans hpend) (by omega)
        exact ⟨k + 1, t, by omega, (run_succ_of_next hstep).trans hrun, ht⟩

/-! ## How an evaluation ends -/

/-- `FOUND` after a command that is no scan is 0 (R35, R112). -/
theorem exec_found_false {i : Instr} {s t : State} (hpilot : i ≠ .findPilot) (hheader : i ≠ .seekHeader)
    (h : exec i s = .next t) : t.status.found = false := by
  cases i with
  | nop => cases h; rfl
  | csum => rcases exec_csum_next h with ⟨-, rfl⟩ | ⟨-, -, rfl⟩ <;> rfl
  | findPilot => exact absurd rfl hpilot
  | seekHeader => exact absurd rfl hheader
  | decode =>
    rcases exec_decode_next h with ⟨-, rfl⟩ | ⟨-, _, -, rfl⟩ | ⟨-, _, _, -, ⟨-, rfl⟩ | ⟨-, rfl⟩⟩ <;> rfl
  | readBlocks => rcases exec_readBlocks_next h with ⟨-, rfl⟩ | ⟨-, _, _, -, rfl⟩ <;> rfl
  | checkComplete => cases h; rfl
  | clearTable => cases h; rfl
  | reserved opc => cases h; rfl

/-- The handshake of a completion (R112), whatever results it writes. -/
theorem CompletionOf.handshake {s t : State} (h : CompletionOf s t) :
    t.status.busy = false ∧ t.pend = none ∧ t.status.done = true ∧ t.status.ovr = s.status.ovr ∧ t.irq = s.ie := by
  obtain ⟨_, _, _, _, _, _, _, rfl⟩ := h
  exact ⟨rfl, rfl, rfl, rfl, rfl⟩

/-- Settles O7: every next state is a completion (`exec_next`), and each of the two fields that most commands write as 0
has its own commands. -/
theorem everyCompletionWritesStatus : Obligations.EveryCompletionWritesStatus := by
  intro i s t h
  obtain ⟨hbusy, hpend, hdone, hovr, hirq⟩ := (exec_next h).handshake
  refine ⟨hbusy, hpend, hdone, hovr, hirq, fun hfound => ?_, fun hflags => ?_⟩
  · by_contra hscan
    obtain ⟨hpilot, hheader⟩ := not_or.1 hscan
    rw [exec_found_false hpilot hheader h] at hfound
    cases hfound
  · by_contra hcheck
    exact hflags (exec_flags_none hcheck h)

/-- A command completes, or faults at an unwritten byte below `BUF_LEN` (R113, R126). -/
theorem exec_next_or_fault (i : Instr) (s : State) :
    (∃ t, exec i s = .next t) ∨
    ∃ j, j < s.bufLen.toNat ∧ s.cap.read j = none ∧ exec i s = .fault (.unwrittenCaptureByte j) := by
  cases h : exec i s with
  | next t => exact .inl ⟨t, rfl⟩
  | fault f =>
    obtain ⟨j, hj, -, hread, rfl⟩ := exec_fault h
    exact .inr ⟨j, hj, hread, rfl⟩
  | refused r => exact absurd h (exec_not_refused i s r)

/-- Settles O10: the other way to end needs an unwritten byte below `BUF_LEN`. -/
theorem everyCommandCompletesOnWrittenCapture : Obligations.EveryCommandCompletesOnWrittenCapture := by
  refine ⟨fun i s hwritten => ?_, fun i s hstuck => ?_⟩
  · rcases exec_next_or_fault i s with hnext | ⟨j, hj, hread, -⟩
    · exact hnext
    · have hsome := hwritten j (Nat.zero_le j) hj
      rw [hread] at hsome
      cases hsome
  · rcases exec_next_or_fault i s with ⟨t, hnext⟩ | hfault
    · exact absurd hnext (hstuck t)
    · exact hfault

end Sys2Proof.Machine
end

section
/-! PROOFS. The power-on reset state (O40): what each register reads there, and the empty capture. -/

namespace Sys2Proof.Machine

open Sys2Proof

theorem Status.pack_reset : Status.reset.pack = 0#32 := by decide

/-- After reset a register reads 0, unless it is one of the three whose value the instance fixes (R19, R20, R124); the
table window does because the table is empty (R29). -/
theorem State.readReg_resetWith_zero (p : Params) {r : RegName} (hid : r ≠ .id) (hcap : r ≠ .cfgCapSize)
    (hmax : r ≠ .cfgMaxBlocks) : (State.resetWith p).readReg r = 0#32 := by
  have hwindow : ∀ word : Entry → Word, (State.resetWith p).tblWord word = 0#32 :=
    State.tblWord_beyond (Nat.zero_le _)
  cases r with
  | id => exact absurd rfl hid
  | cfgCapSize => exact absurd rfl hcap
  | cfgMaxBlocks => exact absurd rfl hmax
  | status => exact Status.pack_reset
  | tblW0 | tblW1 | tblW2 | tblW3 => rw [State.readReg, hwindow]
  | ctrl | cmd | bufLen | cursor | argAddr | argLen | resultIndex | csum | blockCount | tblIndex => rfl

/-- Settles O40: the registers listed are none of the three whose value the instance fixes, and the capture is empty. -/
theorem resetValues : Obligations.ResetValues := by
  have hlisted : ∀ r ∈ [RegName.ctrl, .cmd, .status, .bufLen, .cursor, .argAddr, .argLen, .resultIndex, .csum,
      .blockCount, .tblIndex, .tblW0, .tblW1, .tblW2, .tblW3], r ≠ .id ∧ r ≠ .cfgCapSize ∧ r ≠ .cfgMaxBlocks := by
    decide
  refine fun p => ⟨rfl, rfl, rfl, fun r hr => ?_, rfl, State.irq_of_not_done rfl, fun _ => rfl⟩
  obtain ⟨hid, hcap, hmax⟩ := hlisted r hr
  exact State.readReg_resetWith_zero p hid hcap hmax

end Sys2Proof.Machine
end
